-- ==== Sys2Proof/Word.lean ====
section
/-! DEFINITION. The word of the machine and the names a mode digit stands for. -/
namespace Sys2Proof

/-- One memory cell's value: a signed integer (00_scope.md R6). No instruction reads a bit of a word, so a
word is an integer and only its range, `Config.inRange`, is architectural (R6, R10). -/
abbrev Word := Int

/-- Parameter Mode, "one of three variants" (30_encoding.md R82). -/
inductive Mode where
  /-- digit 0: the parameter is an address -/
  | position
  /-- digit 1: the parameter is the value itself -/
  | immediate
  /-- digit 2: the parameter is an offset from the relative base -/
  | relative
deriving DecidableEq, Repr

end Sys2Proof
end

