-- ==== Sys2Proof/Config.lean ====
section
/-! DEFINITION. What an implementation fixes: the open parameters `W` and `AMAX` (00_scope.md R6, R7; 93 part 3).
The spec draws no free value (40_engine.md R123), so this file has no opaque constant. -/
namespace Sys2Proof

/-- Parameter `W` (00_scope.md R6). -/
inductive Width where
  /-- words are the integers of `w` bits, two's-complement range -/
  | bits (w : Nat)
  /-- `W = infinity`: words are all of the integers -/
  | unbounded
deriving DecidableEq, Repr

/-- Parameter `AMAX` (00_scope.md R7). -/
inductive AddrLimit where
  /-- the largest valid address -/
  | atMost (a : Nat)
  /-- `AMAX = infinity`: every non-negative integer is a valid address -/
  | unbounded
deriving DecidableEq, Repr

/-- The parameters of the step relation (10_state.md R33). -/
structure Config where
  width : Width
  amax  : AddrLimit
deriving DecidableEq, Repr

/-- `W >= 64` or `W = infinity` (00_scope.md R6). -/
def Config.wf (c : Config) : Bool :=
  match c.width with
  | .bits w => decide (64 ≤ w)
  | .unbounded => true

/-- The values the spec recommends (`W = 64`, D1) and takes (`AMAX = infinity`, D3). DESIGN CHOICE (log 2). -/
def Config.standard : Config := { width := .bits 64, amax := .unbounded }

/-- The integers of the document: no bound on a word and none on an address (90_conflicts.md C9). -/
def Config.infinite : Config := { width := .unbounded, amax := .unbounded }

end Sys2Proof
end

