-- ==== Sys2Proof/Syntax.lean ====
section
/-! DEFINITION. The decoded instruction: one constructor per row of spec/opcode_table.json. -/
namespace Sys2Proof

/-- "The decoded instruction is `{opcode, (m1, m2, m3)}`" (40_engine.md R113): the opcode is the constructor and
each carries all three modes the decoder produces, also those its opcode has no parameter for (30_encoding.md
R91). The parameter words are not part of it: the step reads them after the hook check (R110, R115). -/
inductive Instr where
  /-- opcode 1, `ADD a, b, c` (R140) -/
  | add (m1 m2 m3 : Mode)
  /-- opcode 2, `MUL a, b, c` (R141) -/
  | mul (m1 m2 m3 : Mode)
  /-- opcode 3, `IN c` (R150) -/
  | inp (m1 m2 m3 : Mode)
  /-- opcode 4, `OUT a` (R151) -/
  | out (m1 m2 m3 : Mode)
  /-- opcode 5, `JT a, t` (R160) -/
  | jt (m1 m2 m3 : Mode)
  /-- opcode 6, `JF a, t` (R161) -/
  | jf (m1 m2 m3 : Mode)
  /-- opcode 7, `LT a, b, c` (R170) -/
  | lt (m1 m2 m3 : Mode)
  /-- opcode 8, `EQ a, b, c` (R171) -/
  | eq (m1 m2 m3 : Mode)
  /-- opcode 9, `ARB a` (R180) -/
  | arb (m1 m2 m3 : Mode)
  /-- opcode 99, `HLT` (R185) -/
  | hlt (m1 m2 m3 : Mode)
deriving DecidableEq, Repr

end Sys2Proof
end

