-- ==== Sys2Proof/WellFormed.lean ====
section
/-! DEFINITION. Which decoded instructions are legal: Immediate mode never stands on a write parameter. -/
namespace Sys2Proof

/-- The write parameter's number and mode: `p3` for opcodes 1, 2, 7, 8, `p1` for opcode 3, none for the others
(30_encoding.md R83; 40_engine.md R117). -/
def Instr.writeMode : Instr → Option (Nat × Mode)
  | .add _ _ m3 => some (3, m3)
  | .mul _ _ m3 => some (3, m3)
  | .inp m1 _ _ => some (1, m1)
  | .out _ _ _  => none
  | .jt _ _ _   => none
  | .jf _ _ _   => none
  | .lt _ _ m3  => some (3, m3)
  | .eq _ _ m3  => some (3, m3)
  | .arb _ _ _  => none
  | .hlt _ _ _  => none

/-- "Writes ... never use Immediate mode" (30_encoding.md R90). Every other triple of modes is legal (R84, R91). -/
def Instr.wf (i : Instr) : Bool :=
  match i.writeMode with
  | some (_, .immediate) => false
  | some (_, .position)  => true
  | some (_, .relative)  => true
  | none => true

end Sys2Proof
end

