-- ==== Sys2Proof/Decode.lean ====
section
/-! DEFINITION. The decoder of instruction words and, after it, the encoder. The encoding is decimal
(30_encoding.md): the fields of an instruction word are decimal digits. -/
namespace Sys2Proof

/-- Why a word is no instruction (40_engine.md R113; 60_exceptions.md R221, R225 to R227). -/
inductive DecodeFault where
  /-- negative word, or low two digits outside {1..9, 99} (R86, R87) -/
  | unknownOpcode
  /-- a sixth or higher digit is not 0 (R88) -/
  | excessDigits
  /-- mode digit 3..9: the lowest such position `k` and its digit (R89, R226) -/
  | reservedMode (k : Nat) (digit : Nat)
  /-- mode digit 1 on the write parameter `k` (R90, R225) -/
  | immediateWrite (k : Nat)
deriving DecidableEq, Repr

/-! ## Fields of a non-negative instruction word (R10, R81) -/

/-- `digit(w, i)`: decimal digit `i` of `w`, counted from the least significant end (00_scope.md R10). -/
def digit (w i : Nat) : Nat := w / 10 ^ i % 10

/-- `digits[hi:lo](w)` (00_scope.md R10). -/
def digits (hi lo w : Nat) : Nat := w / 10 ^ lo % 10 ^ (hi - lo + 1)

/-- Digits 1:0 (R81). -/
def opcodeField (w : Nat) : Nat := digits 1 0 w

/-- Digits 5 and up (R81, R88). -/
def excessField (w : Nat) : Nat := w / 10 ^ 5

/-- The mode a digit names, none for the reserved digits 3..9 (R82, R89). -/
def modeOfDigit : Nat → Option Mode
  | 0 => some .position
  | 1 => some .immediate
  | 2 => some .relative
  | _ => none

/-- The opcode map (R83): the instruction an opcode and three modes make; none for an unknown opcode (R86). -/
def instrOfOpcode (op : Nat) (m1 m2 m3 : Mode) : Option Instr :=
  match op with
  | 1  => some (.add m1 m2 m3)
  | 2  => some (.mul m1 m2 m3)
  | 3  => some (.inp m1 m2 m3)
  | 4  => some (.out m1 m2 m3)
  | 5  => some (.jt m1 m2 m3)
  | 6  => some (.jf m1 m2 m3)
  | 7  => some (.lt m1 m2 m3)
  | 8  => some (.eq m1 m2 m3)
  | 9  => some (.arb m1 m2 m3)
  | 99 => some (.hlt m1 m2 m3)
  | _  => none

/-- "in {1,2,3,4,5,6,7,8,9,99}" (R86). -/
def knownOpcode (op : Nat) : Bool := (instrOfOpcode op .position .position .position).isSome

/-- The ordered triple of modes of a word, digits 2, 3, 4; the lowest reserved position decides the fault
(R81, R89, R226). -/
def modesOf (w : Nat) : Except DecodeFault (Mode × Mode × Mode) :=
  match modeOfDigit (digit w 2), modeOfDigit (digit w 3), modeOfDigit (digit w 4) with
  | none, _, _ => .error (.reservedMode 1 (digit w 2))
  | some _, none, _ => .error (.reservedMode 2 (digit w 3))
  | some _, some _, none => .error (.reservedMode 3 (digit w 4))
  | some m1, some m2, some m3 => .ok (m1, m2, m3)

/-- Immediate mode on the write parameter is refused by name (R90). -/
def checkWriteMode (i : Instr) : Except DecodeFault Instr :=
  match i.writeMode with
  | some (k, .immediate) => .error (.immediateWrite k)
  | some (_, .position)  => .ok i
  | some (_, .relative)  => .ok i
  | none => .ok i

/-- Decoding a non-negative word, the checks in the order of 40_engine.md R113. -/
def decodeNat (w : Nat) : Except DecodeFault Instr :=
  if knownOpcode (opcodeField w) then
    if excessField w = 0 then
      match modesOf w with
      | .error e => .error e
      | .ok (m1, m2, m3) =>
        match instrOfOpcode (opcodeField w) m1 m2 m3 with
        | some i => checkWriteMode i
        | none => .error .unknownOpcode
    else .error .excessDigits
  else .error .unknownOpcode

/-- The instruction decoder (40_engine.md R113): total on words, a negative word is `unknownOpcode` (R87). -/
def decode (w : Word) : Except DecodeFault Instr :=
  match w with
  | .ofNat n => decodeNat n
  | .negSucc _ => .error .unknownOpcode

/-! ## The encoder -/

/-- The digit that names a mode (R82). -/
def Mode.digit : Mode → Nat
  | .position => 0
  | .immediate => 1
  | .relative => 2

/-- The opcode column of R83. -/
def Instr.opcode : Instr → Nat
  | .add _ _ _ => 1
  | .mul _ _ _ => 2
  | .inp _ _ _ => 3
  | .out _ _ _ => 4
  | .jt _ _ _  => 5
  | .jf _ _ _  => 6
  | .lt _ _ _  => 7
  | .eq _ _ _  => 8
  | .arb _ _ _ => 9
  | .hlt _ _ _ => 99

/-- The three modes of a decoded instruction, the source's "ordered triple of Parameter Mode". -/
def Instr.modes : Instr → Mode × Mode × Mode
  | .add m1 m2 m3 => (m1, m2, m3)
  | .mul m1 m2 m3 => (m1, m2, m3)
  | .inp m1 m2 m3 => (m1, m2, m3)
  | .out m1 m2 m3 => (m1, m2, m3)
  | .jt m1 m2 m3  => (m1, m2, m3)
  | .jf m1 m2 m3  => (m1, m2, m3)
  | .lt m1 m2 m3  => (m1, m2, m3)
  | .eq m1 m2 m3  => (m1, m2, m3)
  | .arb m1 m2 m3 => (m1, m2, m3)
  | .hlt m1 m2 m3 => (m1, m2, m3)

/-- Column "params `n`" of R83. -/
def Instr.paramCount : Instr → Nat
  | .add _ _ _ => 3
  | .mul _ _ _ => 3
  | .inp _ _ _ => 1
  | .out _ _ _ => 1
  | .jt _ _ _  => 2
  | .jf _ _ _  => 2
  | .lt _ _ _  => 3
  | .eq _ _ _  => 3
  | .arb _ _ _ => 1
  | .hlt _ _ _ => 0

/-- "An instruction occupies `1 + n` consecutive words" (R80, R85). -/
def Instr.length (i : Instr) : Nat := 1 + i.paramCount

/-- The instruction word `opcode + 100*m1 + 1000*m2 + 10000*m3` (R101). -/
def encode (i : Instr) : Word :=
  Int.ofNat (i.opcode + 100 * i.modes.1.digit + 1000 * i.modes.2.1.digit + 10000 * i.modes.2.2.digit)

/-- The words of an instruction: the instruction word, then its raw parameter words in order (R80, R101); none
where their number is not the opcode's. -/
def assemble (i : Instr) (ps : List Word) : Option (List Word) :=
  if ps.length = i.paramCount then some (encode i :: ps) else none

/-! ## The host's numbering of table words (log 9) -/

/-- The word whose 64 bits are `n`, two's complement. DESIGN CHOICE (log 9): the spec stores no bits (R54). -/
def wordOfBits (n : Nat) : Word :=
  if n < 2 ^ 63 then Int.ofNat n else Int.ofNat n - Int.ofNat (2 ^ 64)

/-- Word `k` of an instruction whose bits are `w`, 64 bits a word, every bit above `nbits` zero. -/
def tableWord (nbits w k : Nat) : Word := wordOfBits (w % 2 ^ nbits / 2 ^ (64 * k) % 2 ^ 64)

/-- The instruction the decoder reads from an instruction whose bits are `w`. -/
def decodeTableWord (nbits w : Nat) : Option Instr :=
  match decode (tableWord nbits w 0) with
  | .ok i => some i
  | .error _ => none

end Sys2Proof
end

