-- ==== Sys2Proof/Machine/State.lean ====
section
/-! DEFINITION. Everything the spec gives one instance of the machine, as plain data, and its reset value
(10_state.md). -/
namespace Sys2Proof.Machine

/-- One listed memory cell: an address and the word it holds. Cells are words, not bytes: "There are no bytes"
(20_memory.md R54; log 1). -/
abbrev Cell := Nat × Word

/-- `mem` (10_state.md R23): a sparse list of cells. An unlisted address reads 0 (20_memory.md R50). The canonical
form is `Memory.wf`; the operations are in Machine/Ops.lean. -/
abbrev Memory := List Cell

/-- Which access met the invalid address (60_exceptions.md R224). -/
inductive Access where
  /-- the instruction fetch -/
  | fetch
  /-- the fetch of parameter word `k` -/
  | param (k : Nat)
  /-- the resolved operand of parameter `k` -/
  | operand (k : Nat)
  /-- the target of a taken jump -/
  | target
deriving DecidableEq, Repr

/-- A fatal condition with what it records: one constructor per row of the table of 60_exceptions.md R220. -/
inductive Condition where
  | unknownOpcode
  | missingInputHook
  | missingOutputHook
  | invalidAddress (addr : Int) (access : Access)
  | immediateWrite (k : Nat)
  | reservedMode (k : Nat) (digit : Nat)
  | excessDigits
  | valueOutOfRange (r : Int)
deriving DecidableEq, Repr

/-- `fr.cause`: the eight causes of 60_exceptions.md R220. -/
inductive Cause where
  | unknownOpcode
  | missingInputHook
  | missingOutputHook
  | invalidAddress
  | immediateWrite
  | reservedMode
  | excessDigits
  | valueOutOfRange
deriving DecidableEq, Repr

/-- `fr.detail`, by column "`detail` recorded" of 60_exceptions.md R220. -/
inductive Detail where
  /-- none (`raw` says it all) -/
  | nothing
  /-- the bad address, and which access -/
  | address (addr : Int) (access : Access)
  /-- the parameter number -/
  | parameter (k : Nat)
  /-- the lowest such parameter position, and the digit -/
  | mode (k : Nat) (digit : Nat)
  /-- the exact result -/
  | result (r : Int)
deriving DecidableEq, Repr

/-- The fault record `fr` (10_state.md R27). -/
structure FaultRecord where
  cause  : Cause
  /-- the `ip` of the faulting instruction -/
  addr   : Nat
  /-- the instruction word `mem[addr]`; no value if the instruction fetch itself faulted (60_exceptions.md R230) -/
  raw    : Option Word
  detail : Detail
deriving DecidableEq, Repr

/-- `st` (10_state.md R24), each value with the latches that have a value in it and only in it: `pend_dst`,
`pend_val` (R28) and `fr` (R27). -/
inductive EngineState where
  | running
  /-- one input request outstanding; `pendDst` is the resolved destination of the `IN` in progress -/
  | awaitingInput (pendDst : Nat)
  /-- a value is presented; `pendVal` is the resolved value of the `OUT` in progress -/
  | awaitingOutput (pendVal : Word)
  | halted
  | cancelled
  | faulted (fr : FaultRecord)
deriving DecidableEq, Repr

/-- One transition's initiator: the engine, or the host by one of its events (48_host_interface.md R190). -/
inductive HostEvent where
  /-- no event of the host: the engine takes its turn -/
  | engineTurn
  /-- `InputValue(v)` -/
  | inputValue (v : Word)
  /-- `OutputAccept` -/
  | outputAccept
  /-- `Cancel` -/
  | cancel
  /-- `Reset(image, has_in, has_out)` -/
  | reset (image : List Word) (hasIn hasOut : Bool)
deriving DecidableEq, Repr

/-- One instance of the core (10_state.md). -/
structure State where
  /-- `W` and `AMAX`: parameters (R33), constant in every transition (log 2) -/
  cfg    : Config
  /-- `mem` (R23) -/
  mem    : Memory
  /-- `ip` (R21) -/
  ip     : Nat
  /-- `rb` (R22) -/
  rb     : Word
  /-- `st` with `pend_dst`, `pend_val`, `fr` (R24, R27, R28) -/
  st     : EngineState
  /-- `cancel` (R25) -/
  cancel : Bool
  /-- `HAS_IN` (R26) -/
  hasIn  : Bool
  /-- `HAS_OUT` (R26) -/
  hasOut : Bool
  /-- the output stream, oldest first (48_host_interface.md R194) -/
  outs   : List Word
  /-- the MODEL's own field (log 5): who makes each coming transition; past its end the engine does -/
  host   : List HostEvent
deriving DecidableEq, Repr

/-- Faults of the model itself: NONE. Every fatal condition of the spec is a next state with `st = Faulted`
(60_exceptions.md R230), and every read the spec allows has a value; nothing else stops the machine. Safe. -/
inductive Fault where
deriving DecidableEq, Repr

/-- Transitions the spec refuses to give: events outside the host's duties, "refused, not given a meaning"
(48_host_interface.md R193; 92 D19; 93 V8, V9). -/
inductive Refusal where
  /-- An instruction without a meaning. Raised by no arm: every instruction is modelled. Safe. -/
  | notModelled (mnemonic : String)
  /-- `InputValue` while `in_req` is false; raised by `inputValue`. Safe: the event has no transition (R193, V9). -/
  | unsolicitedInput
  /-- `InputValue(v)` with `v` outside `WMIN..WMAX`; raised by `inputValue`. Safe (R193, V8). -/
  | inputOutOfRange
  /-- `OutputAccept` while `out_valid` is false; raised by `outputAccept`. Safe (R194, V9). -/
  | unsolicitedAccept
  /-- `Reset` with an image element outside the word range or an image longer than `AMAX + 1`; raised by
  `resetEvent`. Safe: "never reaches `Reset`" (R191, V8). -/
  | illegalImage
  /-- An instance number that names no instance; raised by `Instances.stepAt`. Safe. -/
  | noSuchInstance
deriving DecidableEq, Repr

/-- The machine right after `Reset([], 1, 1)` (10_state.md R32; 70_reset_and_hazards.md R260), with the spec's
recommended parameters (log 2), both hooks present (log 3), the empty image (log 4) and a silent host (log 5). -/
def State.reset : State where
  cfg    := Config.standard
  mem    := []
  ip     := 0
  rb     := 0
  st     := .running
  cancel := false
  hasIn  := true
  hasOut := true
  outs   := []
  host   := []

end Sys2Proof.Machine
end

