-- ==== Sys2Proof/Machine/Ops.lean ====
section
/-! DEFINITION. The named operations over words, addresses, memory and registers; fault entry; reset. -/
namespace Sys2Proof.Machine

/-! ## The parameters (00_scope.md R6, R7) -/

/-- `inrange(v)`: `WMIN <= v <= WMAX` with `WMIN = -2^(W-1)`, `WMAX = 2^(W-1) - 1`; always true when
`W = infinity` (R6, R11). -/
def inRange (c : Config) (v : Int) : Bool :=
  match c.width with
  | .bits w => decide (-Int.ofNat (2 ^ (w - 1)) ≤ v) && decide (v < Int.ofNat (2 ^ (w - 1)))
  | .unbounded => true

/-- `n <= AMAX` (R7). -/
def isAddr (c : Config) (n : Nat) : Bool :=
  match c.amax with
  | .atMost m => decide (n ≤ m)
  | .unbounded => true

/-- "An address `a` is *valid* iff `0 <= a <= AMAX`" (R7): the valid address `a` as a natural number, none for an
invalid one (20_memory.md R58). -/
def validAddr (c : Config) (a : Int) : Option Nat :=
  match a with
  | .ofNat n => if isAddr c n then some n else none
  | .negSucc _ => none

/-! ## Memory (20_memory.md R50, R51) -/

/-- `mem[a]`: the listed word, 0 for an unlisted address (R50). -/
def Memory.read : Memory → Nat → Word
  | [], _ => 0
  | (b, u) :: m, a => if a = b then u else Memory.read m a

/-- List the cell `(a, v)`, `v` not 0, in its place by address. -/
def Memory.put : Memory → Nat → Word → Memory
  | [], a, v => [(a, v)]
  | (b, u) :: m, a, v =>
    if a < b then (a, v) :: (b, u) :: m
    else if a = b then (a, v) :: m
    else (b, u) :: Memory.put m a v

/-- `mem[a] <- v` "and no other address changes" (00_scope.md R11). Writing 0, what an unlisted address reads as,
unlists the cell, so that equal memories are equal data (R51: growth is not state). -/
def Memory.write (m : Memory) (a : Nat) (v : Word) : Memory :=
  if v = 0 then m.filter (fun c => decide (c.1 ≠ a)) else Memory.put m a v

/-- The canonical form: addresses strictly rising, no entry 0. -/
abbrev Memory.wf (m : Memory) : Prop :=
  m.Pairwise (fun c d => c.1 < d.1) ∧ ∀ c ∈ m, c.2 ≠ 0

/-- The cells of an image placed from address `a` upward (20_memory.md R57). -/
def imageFrom (a : Nat) : List Word → Memory
  | [] => []
  | v :: vs => if v = 0 then imageFrom (a + 1) vs else (a, v) :: imageFrom (a + 1) vs

/-- `mem[a] <- image[a]` for `0 <= a < len(image)`, 0 for every other address (70_reset_and_hazards.md R260). -/
def Memory.ofImage (image : List Word) : Memory := imageFrom 0 image

/-! ## Checked access (00_scope.md R11; 20_memory.md R58) -/

/-- The validity check of an access, made before it has any effect (R58, R224). -/
def checkAddr (s : State) (a : Int) (acc : Access) : Except Condition Nat :=
  match validAddr s.cfg a with
  | some n => .ok n
  | none => .error (.invalidAddress a acc)

/-- `MemRead(a, 1)` (R11). -/
def memRead (s : State) (a : Int) (acc : Access) : Except Condition Word :=
  match checkAddr s a acc with
  | .ok n => .ok (s.mem.read n)
  | .error c => .error c

/-! ## Named updates of the state -/

/-- `MemWrite(d, 1, v)` at an address already checked (R117). -/
def State.store (s : State) (d : Nat) (v : Word) : State := { s with mem := s.mem.write d v }

/-- `ip <- t`. -/
def State.setIp (s : State) (t : Nat) : State := { s with ip := t }

/-- `ip <- ip + len`, "opcode's fixed parameter count + 1" (40_engine.md R120). -/
def State.advance (s : State) (len : Nat) : State := s.setIp (s.ip + len)

/-- `rb <- r`. -/
def State.setRb (s : State) (r : Word) : State := { s with rb := r }

/-- `st <- e`. -/
def State.setSt (s : State) (e : EngineState) : State := { s with st := e }

/-- `cancel <- 1` (48_host_interface.md R195). -/
def State.setCancel (s : State) : State := { s with cancel := true }

/-- `v` becomes the next element of the output stream (R194). -/
def State.emit (s : State) (v : Word) : State := { s with outs := s.outs ++ [v] }

/-- The host's coming events become `es` (the model's own field, log 5). -/
def State.setHost (s : State) (es : List HostEvent) : State := { s with host := es }

/-! ## Fault entry (60_exceptions.md R230) -/

/-- The cause of a condition (R220). -/
def Condition.cause : Condition → Cause
  | .unknownOpcode => .unknownOpcode
  | .missingInputHook => .missingInputHook
  | .missingOutputHook => .missingOutputHook
  | .invalidAddress _ _ => .invalidAddress
  | .immediateWrite _ => .immediateWrite
  | .reservedMode _ _ => .reservedMode
  | .excessDigits => .excessDigits
  | .valueOutOfRange _ => .valueOutOfRange

/-- What the record keeps of a condition (R220, R221 to R228). -/
def Condition.detail : Condition → Detail
  | .unknownOpcode => .nothing
  | .missingInputHook => .nothing
  | .missingOutputHook => .nothing
  | .invalidAddress a acc => .address a acc
  | .immediateWrite k => .parameter k
  | .reservedMode k d => .mode k d
  | .excessDigits => .nothing
  | .valueOutOfRange r => .result r

/-- The numeric fault codes of R220. -/
def Cause.code : Cause → Nat
  | .unknownOpcode => 1
  | .missingInputHook => 2
  | .missingOutputHook => 3
  | .invalidAddress => 4
  | .immediateWrite => 5
  | .reservedMode => 6
  | .excessDigits => 7
  | .valueOutOfRange => 8

/-- `fr.raw <- mem[ip]`, "no value if the fetch itself faulted" (R230). -/
def rawWord (s : State) : Option Word :=
  match isAddr s.cfg s.ip with
  | true => some (s.mem.read s.ip)
  | false => none

/-- The fault record a `raise` writes (R230). -/
def faultRecord (c : Condition) (s : State) : FaultRecord where
  cause  := c.cause
  addr   := s.ip
  raw    := rawWord s
  detail := c.detail

/-- `raise`: `st <- Faulted` with the record, and nothing else (R230). There is no handler and no return (R233). -/
def raise (c : Condition) (s : State) : State := s.setSt (.faulted (faultRecord c s))

/-- The end of an instruction: its effect, or the `raise` of the first condition met, which leaves none of the
effect (R232). -/
def settle (s : State) (r : Except Condition State) : Host.Outcome State Fault Refusal :=
  match r with
  | .ok t => .next t
  | .error c => .next (raise c s)

/-- The condition a word that is no instruction raises (40_engine.md R113). -/
def conditionOf : DecodeFault → Condition
  | .unknownOpcode => .unknownOpcode
  | .excessDigits => .excessDigits
  | .reservedMode k d => .reservedMode k d
  | .immediateWrite k => .immediateWrite k

/-! ## Reset (70_reset_and_hazards.md R260) -/

/-- What the core requires of an image: "every element is a word (`WMIN..WMAX`), and the length is at most
`AMAX + 1`" (48_host_interface.md R191). -/
def legalImage (c : Config) (image : List Word) : Bool :=
  image.all (inRange c) &&
    (match c.amax with
     | .atMost m => decide (image.length ≤ m + 1)
     | .unbounded => true)

/-- `Reset(image, has_in, has_out)` of an instance with parameters `c` whose host's coming events are `es`. The
output stream of the new run is empty (log 6). -/
def resetTo (c : Config) (image : List Word) (hasIn hasOut : Bool) (es : List HostEvent) : State where
  cfg    := c
  mem    := Memory.ofImage image
  ip     := 0
  rb     := 0
  st     := .running
  cancel := false
  hasIn  := hasIn
  hasOut := hasOut
  outs   := []
  host   := es

end Sys2Proof.Machine
end

