-- ==== Sys2Proof/Machine/Operands.lean ====
section
/-! DEFINITION. Parameter fetch and the addressing-mode dispatcher `val`, `dst` (40_engine.md R115 to R118). -/
namespace Sys2Proof.Machine

/-- The raw parameter word `p_k <- MemRead(ip + k, 1)` (R115). -/
def paramWord (s : State) (k : Nat) : Except Condition Word := memRead s (Int.ofNat (s.ip + k)) (.param k)

/-- `val(k)`: the value of read parameter `k` whose raw word is `p` (R116). The effective address `rb + p` is
exact and not range-checked (D22). -/
def valOf (s : State) (k : Nat) (m : Mode) (p : Word) : Except Condition Word :=
  match m with
  | .position => memRead s p (.operand k)
  | .immediate => .ok p
  | .relative => memRead s (s.rb + p) (.operand k)

/-- `dst(k)`: the address of write parameter `k` whose raw word is `p` (R117). Immediate "cannot occur here"; an
ill-formed instruction handed to `exec` raises what its decoding would have (log 10). -/
def dstOf (s : State) (k : Nat) (m : Mode) (p : Word) : Except Condition Nat :=
  match m with
  | .position => checkAddr s p (.operand k)
  | .immediate => .error (.immediateWrite k)
  | .relative => checkAddr s (s.rb + p) (.operand k)

/-! The operands of the four formats with parameters (30_encoding.md R84). All parameter words are fetched first, in
ascending order; then all parameters are resolved, in order 1, 2, 3 (R115, R118; 20_memory.md R63). -/

/-- Format `RRW`: two values and a destination. -/
def operandsRRW (s : State) (m1 m2 m3 : Mode) : Except Condition (Word × Word × Nat) := do
  let p1 ← paramWord s 1
  let p2 ← paramWord s 2
  let p3 ← paramWord s 3
  let a ← valOf s 1 m1 p1
  let b ← valOf s 2 m2 p2
  let d ← dstOf s 3 m3 p3
  pure (a, b, d)

/-- Format `RR`: two values, both resolved even for an untaken jump (R118). -/
def operandsRR (s : State) (m1 m2 : Mode) : Except Condition (Word × Word) := do
  let p1 ← paramWord s 1
  let p2 ← paramWord s 2
  let a ← valOf s 1 m1 p1
  let t ← valOf s 2 m2 p2
  pure (a, t)

/-- Format `R`: one value. -/
def operandR (s : State) (m1 : Mode) : Except Condition Word := do
  let p1 ← paramWord s 1
  valOf s 1 m1 p1

/-- Format `W`: one destination. -/
def operandW (s : State) (m1 : Mode) : Except Condition Nat := do
  let p1 ← paramWord s 1
  dstOf s 1 m1 p1

end Sys2Proof.Machine
end

