-- ==== Sys2Proof/Machine/Flags.lean ====
section
/-! DEFINITION. The machine has no flags (10_state.md R29). What other machines keep in flags is here: the range
check of a result, the 0 or 1 of a comparison, and the jumps' test of a value. -/
namespace Sys2Proof.Machine

/-- The exact result of `ADD`, `MUL`, `ARB`, or `ValueOutOfRange` (41_arithmetic.md R142 c; 60_exceptions.md R228). -/
def rangeCheck (s : State) (r : Int) : Except Condition Word :=
  match inRange s.cfg r with
  | true => .ok r
  | false => .error (.valueOutOfRange r)

/-- "the result is exactly the word 1 or the word 0" (44_compare.md R170, R171). -/
def truthWord (b : Bool) : Word := if b then 1 else 0

/-- "\"true\" is any non-zero value", "\"false\" is exactly zero" (43_jumps.md R160, R161). -/
def jumpTest (a : Word) : Bool := decide (a ≠ 0)

end Sys2Proof.Machine
end

