-- ==== Sys2Proof/Machine/Arith.lean ====
section
/-! DEFINITION. ADD and MUL (41_arithmetic.md). -/
namespace Sys2Proof.Machine

/-- What `ADD` and `MUL` share: resolve, compute exactly, check the range, write, `ip + 4`. -/
def storeResult (f : Int → Int → Int) (m1 m2 m3 : Mode) (s : State) : Except Condition State := do
  let (a, b, d) ← operandsRRW s m1 m2 m3
  let r ← rangeCheck s (f a b)
  pure ((s.store d r).advance 4)

/-- `ADD a, b, c` (R140): "mem[out] = resolve(p1) + resolve(p2)". -/
def execAdd (m1 m2 m3 : Mode) (s : State) : Host.Outcome State Fault Refusal :=
  settle s (storeResult (fun a b => a + b) m1 m2 m3 s)

/-- `MUL a, b, c` (R141): "mem[out] = resolve(p1) * resolve(p2)". -/
def execMul (m1 m2 m3 : Mode) (s : State) : Host.Outcome State Fault Refusal :=
  settle s (storeResult (fun a b => a * b) m1 m2 m3 s)

end Sys2Proof.Machine
end

