-- ==== Sys2Proof/Machine/Compare.lean ====
section
/-! DEFINITION. LT and EQ (44_compare.md). -/
namespace Sys2Proof.Machine

/-- What `LT` and `EQ` share: a 0 result is written, not skipped. -/
def storeTruth (p : Word → Word → Bool) (m1 m2 m3 : Mode) (s : State) : Except Condition State := do
  let (a, b, d) ← operandsRRW s m1 m2 m3
  pure ((s.store d (truthWord (p a b))).advance 4)

/-- `LT a, b, c` (R170): signed comparison of the integer values. -/
def execLt (m1 m2 m3 : Mode) (s : State) : Host.Outcome State Fault Refusal :=
  settle s (storeTruth (fun a b => decide (a < b)) m1 m2 m3 s)

/-- `EQ a, b, c` (R171): equality of the integer values. -/
def execEq (m1 m2 m3 : Mode) (s : State) : Host.Outcome State Fault Refusal :=
  settle s (storeTruth (fun a b => decide (a = b)) m1 m2 m3 s)

end Sys2Proof.Machine
end

