-- ==== Sys2Proof/Machine/Halt.lean ====
section
/-! DEFINITION. HLT (46_halt.md). -/
namespace Sys2Proof.Machine

/-- `HLT` (R185): `st <- Halted`; `ip`, `rb`, `mem` unchanged (D15). It fetches no parameter word. -/
def execHlt (s : State) : Host.Outcome State Fault Refusal := .next (s.setSt .halted)

end Sys2Proof.Machine
end

