-- ==== Sys2Proof/Machine/InOut.lean ====
section
/-! DEFINITION. IN and OUT: their issue, which is the instruction's own step, and their completion, which the
host's event makes (42_io.md; 40_engine.md R121). -/
namespace Sys2Proof.Machine

/-- The hook check of phase 4 (40_engine.md R114), before the parameter fetch (D11). -/
def hookCheck (present : Bool) (c : Condition) : Except Condition Unit :=
  match present with
  | true => .ok ()
  | false => .error c

/-- `IN c`, issue (R150): the destination is resolved, then exactly one input request is outstanding; `mem`, `ip`
and `rb` do not change. -/
def execInp (m1 : Mode) (s : State) : Host.Outcome State Fault Refusal :=
  settle s (do
    hookCheck s.hasIn .missingInputHook
    let d ← operandW s m1
    pure (s.setSt (.awaitingInput d)))

/-- `OUT a`, issue (R151): the value is resolved and presented; `mem`, `ip` and `rb` do not change. -/
def execOut (m1 : Mode) (s : State) : Host.Outcome State Fault Refusal :=
  settle s (do
    hookCheck s.hasOut .missingOutputHook
    let v ← operandR s m1
    pure (s.setSt (.awaitingOutput v)))

/-- Completion of an `IN` whose destination is `d` (R150): the value is stored unchanged. -/
def completeInp (d : Nat) (v : Word) (s : State) : State :=
  ((s.store d v).advance 2).setSt .running

/-- Completion of an `OUT` whose value is `v` (R151): `v` is the next element of the output stream. -/
def completeOut (v : Word) (s : State) : State :=
  ((s.emit v).advance 2).setSt .running

end Sys2Proof.Machine
end

