-- ==== Sys2Proof/Machine/Jumps.lean ====
section
/-! DEFINITION. JT and JF, the only control transfer (43_jumps.md R160 to R162). -/
namespace Sys2Proof.Machine

/-- What `JT` and `JF` share. "Taken means taken": a taken jump sets `ip` and never advances, also to its own address
(40_engine.md R120, D16); its target is checked only when it is taken (D5). -/
def jumpWhen (taken : Word → Bool) (m1 m2 : Mode) (s : State) : Except Condition State := do
  let (a, t) ← operandsRR s m1 m2
  match taken a with
  | true => do
    let n ← checkAddr s t .target
    pure (s.setIp n)
  | false => pure (s.advance 3)

/-- `JT a, t` (R160): "if resolve(p1) != 0: InstructionPointer = resolve(p2)". -/
def execJt (m1 m2 : Mode) (s : State) : Host.Outcome State Fault Refusal :=
  settle s (jumpWhen (fun a => jumpTest a) m1 m2 s)

/-- `JF a, t` (R161): "if resolve(p1) == 0: InstructionPointer = resolve(p2)". -/
def execJf (m1 m2 : Mode) (s : State) : Host.Outcome State Fault Refusal :=
  settle s (jumpWhen (fun a => !jumpTest a) m1 m2 s)

end Sys2Proof.Machine
end

