-- ==== Sys2Proof/Machine/RelBase.lean ====
section
/-! DEFINITION. ARB, the only instruction that writes the relative base (45_relbase.md). -/
namespace Sys2Proof.Machine

/-- `ARB a` (R180): "RelativeBase += resolve(p1)"; the operand is resolved with the old `rb`. -/
def execArb (m1 : Mode) (s : State) : Host.Outcome State Fault Refusal :=
  settle s (do
    let a ← operandR s m1
    let r ← rangeCheck s (s.rb + a)
    pure ((s.setRb r).advance 2))

end Sys2Proof.Machine
end

