-- ==== Sys2Proof/Machine/HostPort.lean ====
section
/-! DEFINITION. The host interface of one instance (48_host_interface.md R190): the four events and the
observations. -/
namespace Sys2Proof.Machine

/-! ## Events -/

/-- `InputValue(v)` (R193): completes the `IN` in progress; outside the host's duties it has no transition (D19). -/
def inputValue (v : Word) (s : State) : Host.Outcome State Fault Refusal :=
  match s.st with
  | .awaitingInput d =>
    match inRange s.cfg v with
    | true => .next (completeInp d v s)
    | false => .refused .inputOutOfRange
  | .running => .refused .unsolicitedInput
  | .awaitingOutput _ => .refused .unsolicitedInput
  | .halted => .refused .unsolicitedInput
  | .cancelled => .refused .unsolicitedInput
  | .faulted _ => .refused .unsolicitedInput

/-- `OutputAccept` (R194): completes the `OUT` in progress; while nothing is presented it has no transition. -/
def outputAccept (s : State) : Host.Outcome State Fault Refusal :=
  match s.st with
  | .awaitingOutput v => .next (completeOut v s)
  | .running => .refused .unsolicitedAccept
  | .awaitingInput _ => .refused .unsolicitedAccept
  | .halted => .refused .unsolicitedAccept
  | .cancelled => .refused .unsolicitedAccept
  | .faulted _ => .refused .unsolicitedAccept

/-- `Cancel` (R195): in any state, sets the latch and nothing more. -/
def cancelEvent (s : State) : Host.Outcome State Fault Refusal := .next s.setCancel

/-- `Reset(image, has_in, has_out)` (70_reset_and_hazards.md R260, R261): in any state, discarding the run; the
parameters are the instance's. An image that is none "never reaches `Reset`" (R191). -/
def resetEvent (image : List Word) (hasIn hasOut : Bool) (s : State) : Host.Outcome State Fault Refusal :=
  match legalImage s.cfg image with
  | true => .next (resetTo s.cfg image hasIn hasOut s.host)
  | false => .refused .illegalImage

/-! ## Observations: read by the host, no effect -/

/-- `in_req`: "true iff `st = AwaitingInput`" (R190). -/
def State.inReq (s : State) : Bool :=
  match s.st with
  | .awaitingInput _ => true
  | .running => false
  | .awaitingOutput _ => false
  | .halted => false
  | .cancelled => false
  | .faulted _ => false

/-- `pend_dst` (10_state.md R28): a value only in `AwaitingInput`. -/
def State.pendDst (s : State) : Option Nat :=
  match s.st with
  | .awaitingInput d => some d
  | .running => none
  | .awaitingOutput _ => none
  | .halted => none
  | .cancelled => none
  | .faulted _ => none

/-- `pend_val`, the value on `out_data` (R28, R190): a value only in `AwaitingOutput`. -/
def State.pendVal (s : State) : Option Word :=
  match s.st with
  | .awaitingOutput v => some v
  | .running => none
  | .awaitingInput _ => none
  | .halted => none
  | .cancelled => none
  | .faulted _ => none

/-- `out_valid`: "iff `st = AwaitingOutput`" (R190). -/
def State.outValid (s : State) : Bool := s.pendVal.isSome

/-- `fr` (10_state.md R27; `status` of R190): a value only in `Faulted`. -/
def State.fr (s : State) : Option FaultRecord :=
  match s.st with
  | .faulted fr => some fr
  | .running => none
  | .awaitingInput _ => none
  | .awaitingOutput _ => none
  | .halted => none
  | .cancelled => none

/-- `Peek(a)` (R197): `mem[a]` for a valid `a`, in any state of the engine. -/
def State.peek (s : State) (a : Int) : Option Word :=
  match validAddr s.cfg a with
  | some n => some (s.mem.read n)
  | none => none

/-- "A run is over iff `st` is `Halted`, `Cancelled` or `Faulted`" (R202). -/
def State.over (s : State) : Bool :=
  match s.st with
  | .halted => true
  | .cancelled => true
  | .faulted _ => true
  | .running => false
  | .awaitingInput _ => false
  | .awaitingOutput _ => false

/-- The values this instance has made available to a consumer: those accepted, and the one presented (R200). -/
def State.offered (s : State) : List Word := s.outs ++ s.pendVal.toList

end Sys2Proof.Machine
end

