-- ==== Sys2Proof/Machine/Engine.lean ====
section
/-! DEFINITION. The step (40_engine.md R110) and who makes the next transition (R124; log 5). -/
namespace Sys2Proof.Machine

/-- Phases 2 and 3: fetch the word at `ip` (R112) and decode it (R113). -/
def fetchDecode (s : State) : Except Condition Instr :=
  match memRead s (Int.ofNat s.ip) .fetch with
  | .error c => .error c
  | .ok w =>
    match decode w with
    | .ok i => .ok i
    | .error e => .error (conditionOf e)

/-- The step from a step boundary: the cancellation check (R111), fetch and decode, then the instruction. -/
def boundaryStep (s : State) : Host.Outcome State Fault Refusal :=
  match s.cancel with
  | true => .next (s.setSt .cancelled)
  | false =>
    match fetchDecode s with
    | .ok i => exec i s
    | .error c => .next (raise c s)

/-- The engine's turn: it steps only in `Running`; in a wait state it executes nothing (48_host_interface.md R201),
and a terminal state is absorbing (10_state.md R24; log 7). -/
def engineTurn (s : State) : Host.Outcome State Fault Refusal :=
  match s.st with
  | .running => boundaryStep s
  | .awaitingInput _ => .next s
  | .awaitingOutput _ => .next s
  | .halted => .next s
  | .cancelled => .next s
  | .faulted _ => .next s

/-- The transition an event of the host makes (R124). -/
def hostTurn (e : HostEvent) (s : State) : Host.Outcome State Fault Refusal :=
  match e with
  | .engineTurn => engineTurn s
  | .inputValue v => inputValue v s
  | .outputAccept => outputAccept s
  | .cancel => cancelEvent s
  | .reset image hasIn hasOut => resetEvent image hasIn hasOut s

/-- One transition: the next of the host's coming events is used up and made; past their end the engine has every
turn (log 5). -/
def transition (s : State) : Host.Outcome State Fault Refusal :=
  match s.host with
  | [] => engineTurn s
  | e :: es => hostTurn e (s.setHost es)

/-- The host leaves the next turn to the engine. -/
def yieldTurn : List HostEvent → List HostEvent
  | [] => []
  | .engineTurn :: es => .engineTurn :: es
  | .inputValue v :: es => .engineTurn :: .inputValue v :: es
  | .outputAccept :: es => .engineTurn :: .outputAccept :: es
  | .cancel :: es => .engineTurn :: .cancel :: es
  | .reset image hasIn hasOut :: es => .engineTurn :: .reset image hasIn hasOut :: es

/-- The four words of an instruction whose bits are `w` (log 9) from address `a` upward. -/
def placeWords (m : Memory) (a nbits w : Nat) : Memory :=
  (((m.write a (tableWord nbits w 0)).write (a + 1) (tableWord nbits w 1)).write (a + 2) (tableWord nbits w 2)).write
    (a + 3) (tableWord nbits w 3)

/-- The instruction stored at `ip`, and the machine at a step boundary at which the engine fetches it: `Running`,
not cancelled, the engine's turn (R110, R111; log 4). -/
def placeInstruction (s : State) (nbits w : Nat) : State :=
  { s with mem := placeWords s.mem s.ip nbits w, st := .running, cancel := false, host := yieldTurn s.host }

end Sys2Proof.Machine
end

