-- ==== Sys2Proof/Machine/Step.lean ====
section
/-! DEFINITION. The step of the machine and the placing of an instruction where it fetches next. -/
namespace Sys2Proof.Machine

/-- One transition of the table of 40_engine.md R124. -/
def step : State → Host.Outcome State Fault Refusal := fun s => transition s

/-- `s` with an instruction whose bits are `w` where `step` fetches its next instruction (log 4, log 9). -/
def State.withFetchWord (s : State) (nbits w : Nat) : State := placeInstruction s nbits w

end Sys2Proof.Machine
end

