-- ==== Sys2Proof/Machine/Instances.lean ====
section
/-! DEFINITION. Several instances side by side (48_host_interface.md R199, R200). They share nothing; which steps
next and what a link carries are the host's (00_scope.md R5 d), so the index comes from outside. -/
namespace Sys2Proof.Machine

/-- The instances of one host arrangement. -/
abbrev Instances := List State

/-- Instance `k` makes one transition; the others are not touched. -/
def Instances.stepAt (sys : Instances) (k : Nat) : Host.Outcome Instances Fault Refusal :=
  match sys[k]? with
  | none => .refused .noSuchInstance
  | some s =>
    match step s with
    | .next t => .next (sys.set k t)
    | .fault r => .fault r
    | .refused r => .refused r

end Sys2Proof.Machine
end

