-- ==== Sys2Proof/Safety.lean ====
section
/-! DEFINITION. The terms claims are stated in: operands read straight from the rules, whose turn it is, and what
holds of every state a run reaches. -/
namespace Sys2Proof.Machine

/-! ## Operands, as 40_engine.md R115 to R117 give them -/

/-- `p` is the raw parameter word `k` of the instruction at `ip` (R115). -/
def ParamIs (s : State) (k : Nat) (p : Word) : Prop :=
  isAddr s.cfg (s.ip + k) = true ∧ s.mem.read (s.ip + k) = p

/-- The effective address of a parameter whose raw word is `p`: `p` in Position, `rb + p` in Relative mode; Immediate
makes no memory access (R116). -/
def effAddr (s : State) (m : Mode) (p : Word) : Option Int :=
  match m with
  | .position => some p
  | .immediate => none
  | .relative => some (s.rb + p)

/-- `v` is `val(k)` (R116). -/
def ValueIs (s : State) (k : Nat) (m : Mode) (v : Word) : Prop :=
  ∃ p, ParamIs s k p ∧
    ((m = .immediate ∧ v = p) ∨ ∃ ea n, effAddr s m p = some ea ∧ validAddr s.cfg ea = some n ∧ s.mem.read n = v)

/-- `d` is `dst(k)` (R117). -/
def DestIs (s : State) (k : Nat) (m : Mode) (d : Nat) : Prop :=
  ∃ p ea, ParamIs s k p ∧ effAddr s m p = some ea ∧ validAddr s.cfg ea = some d

/-- The effective address of parameter `k` is `ea` and it is no valid address (20_memory.md R58). -/
def OperandBad (s : State) (k : Nat) (m : Mode) (ea : Int) : Prop :=
  ∃ p, ParamIs s k p ∧ effAddr s m p = some ea ∧ validAddr s.cfg ea = none

/-- `s` stopped by the fatal condition with this cause and detail, raised by the instruction at `ip`, a valid
address: nothing else differs (60_exceptions.md R230). -/
def faultedWith (s : State) (cause : Cause) (detail : Detail) : State :=
  { s with st := .faulted { cause := cause, addr := s.ip, raw := some (s.mem.read s.ip), detail := detail } }

/-! ## Turns -/

/-- The next transition is the engine's. -/
def State.enginesTurn (s : State) : Bool :=
  match s.host with
  | [] => true
  | .engineTurn :: _ => true
  | .inputValue _ :: _ => false
  | .outputAccept :: _ => false
  | .cancel :: _ => false
  | .reset _ _ _ :: _ => false

/-- The next transition is a `Reset` of the host. -/
def State.resetNext (s : State) : Bool :=
  match s.host with
  | .reset _ _ _ :: _ => true
  | [] => false
  | .engineTurn :: _ => false
  | .inputValue _ :: _ => false
  | .outputAccept :: _ => false
  | .cancel :: _ => false

/-- The next transition is a `Cancel` of the host. -/
def State.cancelNext (s : State) : Bool :=
  match s.host with
  | .cancel :: _ => true
  | [] => false
  | .engineTurn :: _ => false
  | .inputValue _ :: _ => false
  | .outputAccept :: _ => false
  | .reset _ _ _ :: _ => false

/-- `s` with the turn it is about to make used up (log 5). -/
def State.turnUsed (s : State) : State := { s with host := s.host.tail }

/-- The engine is about to execute `i`: `Running`, not cancelled, the engine's turn, and the word at the valid
address `ip` decodes to `i` (40_engine.md R110 to R113). -/
def State.AboutToRun (s : State) (i : Instr) : Prop :=
  s.st = .running ∧ s.cancel = false ∧ s.enginesTurn = true ∧
    isAddr s.cfg s.ip = true ∧ decode (s.mem.read s.ip) = .ok i

/-! ## The invariant -/

/-- The record's detail is what its cause records (60_exceptions.md R220, R224 to R228). -/
def recordOk (c : Config) (fr : FaultRecord) : Prop :=
  match fr.cause with
  | .unknownOpcode => fr.detail = .nothing
  | .missingInputHook => fr.detail = .nothing
  | .missingOutputHook => fr.detail = .nothing
  | .invalidAddress => ∃ a acc, fr.detail = .address a acc ∧ validAddr c a = none
  | .immediateWrite => fr.detail = .parameter 1 ∨ fr.detail = .parameter 3
  | .reservedMode => ∃ k d, fr.detail = .mode k d ∧ 1 ≤ k ∧ k ≤ 3 ∧ 3 ≤ d ∧ d ≤ 9
  | .excessDigits => fr.detail = .nothing
  | .valueOutOfRange => ∃ r, fr.detail = .result r ∧ inRange c r = false

/-- What each engine state promises: the latches equal the operands re-evaluated (10_state.md R28), `Halted` has a
`HLT` at `ip` (92 D15), `Cancelled` has the flag set (R25), and `fr` is the record of the instruction at `ip`
(60_exceptions.md R230). -/
def State.StOk (s : State) : Prop :=
  match s.st with
  | .running => True
  | .awaitingInput d =>
    s.hasIn = true ∧ ∃ m1 m2 m3, decode (s.mem.read s.ip) = .ok (.inp m1 m2 m3) ∧ DestIs s 1 m1 d
  | .awaitingOutput v =>
    s.hasOut = true ∧ ∃ m1 m2 m3, decode (s.mem.read s.ip) = .ok (.out m1 m2 m3) ∧ ValueIs s 1 m1 v
  | .halted => ∃ m1 m2 m3, decode (s.mem.read s.ip) = .ok (.hlt m1 m2 m3)
  | .cancelled => s.cancel = true
  | .faulted fr => fr.addr = s.ip ∧ fr.raw = rawWord s ∧ recordOk s.cfg fr

/-- What every transition keeps: legal parameters; memory in canonical form, holding words at valid addresses only;
`rb` and the output stream words (00_scope.md R6; 10_state.md R22); and `State.StOk`. -/
structure State.Inv (s : State) : Prop where
  cfg   : s.cfg.wf = true
  mem   : s.mem.wf
  cells : ∀ c ∈ s.mem, isAddr s.cfg c.1 = true ∧ inRange s.cfg c.2 = true
  rb    : inRange s.cfg s.rb = true
  outs  : ∀ v ∈ s.outs, inRange s.cfg v = true
  st    : s.StOk

/-- The same state on the machine of the document, with no bound on words and addresses (90_conflicts.md C9). -/
def State.onInfinite (s : State) : State := { s with cfg := Config.infinite }

end Sys2Proof.Machine
end

