-- ==== Sys2Proof/Certificates/Slice0/Obligations.lean ====
section
/-! DEFINITION. The statements for the provers. Each docstring names the rule or section of spec/ it formalises.
Where a clause rests on one of the spec's own decisions (92_eei_decisions.md), the docstring names the decision. -/
open Sys2Proof Sys2Proof.Machine

/-! ## Encoding -/

/-- 30_encoding.md sections 2 and 5: decoding an encoded well-formed instruction gives it back, with every mode in
every position, the unused ones included. -/
def Obligations.DecodeOfEncode : Prop :=
  ∀ i : Instr, i.wf = true → decode (encode i) = .ok i

/-- The other direction: a word that decodes is the encoding of a well-formed instruction, so every digit of it is
accounted for and each legal word means one instruction (30_encoding.md R81, R92). -/
def Obligations.EncodeOfDecode : Prop :=
  ∀ (w : Word) (i : Instr), decode w = .ok i → i.wf = true ∧ encode i = w

/-- Every word, by the arithmetic of 30_encoding.md R81 and the checks in the order of 40_engine.md R113. The checks
themselves are the spec's decisions D6 to D11. -/
def Obligations.DecodeChecksInOrder : Prop :=
  (∀ n : Nat, decode (Int.negSucc n) = .error .unknownOpcode) ∧
  ∀ n : Nat,
    let op := n % 100
    let m1 := n / 100 % 10
    let m2 := n / 1000 % 10
    let m3 := n / 10000 % 10
    if op ∉ [1, 2, 3, 4, 5, 6, 7, 8, 9, 99] then decode n = .error .unknownOpcode
    else if 100000 ≤ n then decode n = .error .excessDigits
    else if 3 ≤ m1 then decode n = .error (.reservedMode 1 m1)
    else if 3 ≤ m2 then decode n = .error (.reservedMode 2 m2)
    else if 3 ≤ m3 then decode n = .error (.reservedMode 3 m3)
    else if op ∈ [1, 2, 7, 8] ∧ m3 = 1 then decode n = .error (.immediateWrite 3)
    else if op = 3 ∧ m1 = 1 then decode n = .error (.immediateWrite 1)
    else ∃ i, decode n = .ok i ∧ i.opcode = op ∧
      i.modes.1.digit = m1 ∧ i.modes.2.1.digit = m2 ∧ i.modes.2.2.digit = m3

/-- Words of 95_test_vectors.md V-DEC, at least one a family. -/
def Obligations.SampleWordsDecode : Prop :=
  decode 1101 = .ok (.add .immediate .immediate .position) ∧
  decode 21201 = .ok (.add .relative .immediate .relative) ∧
  decode 1002 = .ok (.mul .position .immediate .position) ∧
  decode 203 = .ok (.inp .relative .position .position) ∧
  decode 204 = .ok (.out .relative .position .position) ∧
  decode 1105 = .ok (.jt .immediate .immediate .position) ∧
  decode 1106 = .ok (.jf .immediate .immediate .position) ∧
  decode 1107 = .ok (.lt .immediate .immediate .position) ∧
  decode 22208 = .ok (.eq .relative .relative .relative) ∧
  decode 109 = .ok (.arb .immediate .position .position) ∧
  decode 99 = .ok (.hlt .position .position .position) ∧
  decode 0 = .error .unknownOpcode ∧ decode 100001 = .error .excessDigits ∧
  decode 91101 = .error (.reservedMode 3 9) ∧ decode 11101 = .error (.immediateWrite 3)

/-- 30_encoding.md R80, R85: the length is read from the opcode alone, and is 4, 3, 2 or 1. -/
def Obligations.LengthFromOpcodeAlone : Prop :=
  ∀ (n : Nat) (i : Instr), decode n = .ok i →
    i.length = (if n % 100 ∈ [1, 2, 7, 8] then 4 else if n % 100 ∈ [5, 6] then 3
      else if n % 100 ∈ [3, 4, 9] then 2 else 1)

/-- 30_encoding.md R91 (the spec's decision D10): a mode digit at a position the opcode has no parameter for is
never used. -/
def Obligations.UnusedModesIgnored : Prop :=
  ∀ (m1 m2 n1 n2 n3 n1' n2' n3' : Mode) (s : State),
    exec (.jt m1 m2 n3) s = exec (.jt m1 m2 n3') s ∧ exec (.jf m1 m2 n3) s = exec (.jf m1 m2 n3') s ∧
    exec (.inp m1 n2 n3) s = exec (.inp m1 n2' n3') s ∧ exec (.out m1 n2 n3) s = exec (.out m1 n2' n3') s ∧
    exec (.arb m1 n2 n3) s = exec (.arb m1 n2' n3') s ∧ exec (.hlt n1 n2 n3) s = exec (.hlt n1' n2' n3') s

/-! ## Words, addresses, memory -/

/-- 00_scope.md R6 and R11 (`inrange`): the range of a word of `w` bits, and no bound at `W = infinity`. -/
def Obligations.WordRange : Prop :=
  ∀ (am : AddrLimit) (v : Int),
    (∀ w : Nat, 64 ≤ w →
      (inRange { width := .bits w, amax := am } v = true ↔ -(2 ^ (w - 1)) ≤ v ∧ v ≤ 2 ^ (w - 1) - 1)) ∧
    inRange { width := .unbounded, amax := am } v = true

/-- 00_scope.md R7: "An address `a` is *valid* iff `0 <= a <= AMAX`". -/
def Obligations.ValidAddressRange : Prop :=
  ∀ (wd : Width) (a : Int),
    (∀ m : Nat, ((validAddr { width := wd, amax := .atMost m } a).isSome = true ↔ 0 ≤ a ∧ a ≤ m)) ∧
    ((validAddr { width := wd, amax := .unbounded } a).isSome = true ↔ 0 ≤ a) ∧
    (∀ am n, validAddr { width := wd, amax := am } a = some n → (n : Int) = a)

/-- 20_memory.md R50: a cell reads the word last written to it; if none, the image's; otherwise 0. -/
def Obligations.MemoryReadsLastWritten : Prop :=
  (∀ (m : Memory) (a : Nat) (v : Word), (m.write a v).read a = v) ∧
  (∀ (m : Memory) (a b : Nat) (v : Word), a ≠ b → (m.write a v).read b = m.read b) ∧
  (∀ (image : List Word) (a : Nat),
    (Memory.ofImage image).read a = if h : a < image.length then image[a] else 0)

/-- 20_memory.md R51: what a memory holds is all there is to it ("the two are indistinguishable", R50): canonical
memories that read alike are equal data. The canonical form is the model's (log 1). -/
def Obligations.EqualReadsEqualMemories : Prop :=
  ∀ m m' : Memory, m.wf → m'.wf → (∀ a, m.read a = m'.read a) → m = m'

/-! ## The step -/

/-- 40_engine.md R110 to R113, R119: about to run `i`, the step is the meaning of `i`, on the state with the turn used
up (the host's list is the model's own field, log 5). -/
def Obligations.StepRunsDecodedInstruction : Prop :=
  ∀ (s : State) (i : Instr), s.AboutToRun i → step s = exec i s.turnUsed

/-- 40_engine.md R111: a set flag ends the run at the step boundary, before the fetch, whatever stands at `ip`; nothing
else changes. That it wins over `HLT` and over every fault is the spec's decision D17. -/
def Obligations.CancelStopsBeforeFetch : Prop :=
  ∀ s : State, s.st = .running → s.cancel = true → s.enginesTurn = true →
    step s = .next { s.turnUsed with st := .cancelled }

/-- 30_encoding.md R86: every non-negative word with an unknown opcode raises `UnknownOpcode`, the word 0 included. -/
def Obligations.UnknownOpcodeFaults : Prop :=
  ∀ (s : State) (n : Nat), s.st = .running → s.cancel = false → s.enginesTurn = true →
    isAddr s.cfg s.ip = true → s.mem.read s.ip = n →
    n % 100 ∉ [1, 2, 3, 4, 5, 6, 7, 8, 9, 99] →
    step s = .next (faultedWith s.turnUsed .unknownOpcode .nothing)

/-- 40_engine.md R112, R113 for the other words that are no instruction (the spec's decisions D6 to D9), and the fetch
above `AMAX` (D3, D4), which records no raw word. -/
def Obligations.IllegalWordFaults : Prop :=
  ∀ s : State, s.st = .running → s.cancel = false → s.enginesTurn = true →
    (isAddr s.cfg s.ip = false →
      step s = .next { s.turnUsed with
        st := .faulted (FaultRecord.mk .invalidAddress s.ip none (.address s.ip .fetch)) }) ∧
    (isAddr s.cfg s.ip = true →
      (s.mem.read s.ip < 0 → step s = .next (faultedWith s.turnUsed .unknownOpcode .nothing)) ∧
      (decode (s.mem.read s.ip) = .error .excessDigits →
        step s = .next (faultedWith s.turnUsed .excessDigits .nothing)) ∧
      (∀ k d, decode (s.mem.read s.ip) = .error (.reservedMode k d) →
        step s = .next (faultedWith s.turnUsed .reservedMode (.mode k d))) ∧
      (∀ k, decode (s.mem.read s.ip) = .error (.immediateWrite k) →
        step s = .next (faultedWith s.turnUsed .immediateWrite (.parameter k))))

/-- 40_engine.md section 3, 60_exceptions.md section 2: no instruction stops the model and the engine's turn always
answers a next state; a fatal condition is one too. For a wait state or a terminal state, in which the spec gives the
engine no step (48_host_interface.md R202), the answer, the same state, is the model's own (log 7); so is what an
ill-formed instruction, which no word decodes to, answers (log 10). -/
def Obligations.EngineAlwaysAnswers : Prop :=
  (∀ (i : Instr) (s : State), ∃ t, exec i s = .next t) ∧
  (∀ s : State, s.enginesTurn = true → ∃ t, step s = .next t)

/-- 93_implementation_defined.md V8, V9 (the spec's decision D19): a step is refused exactly when the host's event
breaks a duty of the host. -/
def Obligations.OnlyHostBreachesRefused : Prop :=
  ∀ (s : State) (r : Refusal), step s = .refused r ↔
    ∃ e es, s.host = e :: es ∧
      ((∃ v, e = .inputValue v ∧ s.inReq = false ∧ r = .unsolicitedInput) ∨
       (∃ v, e = .inputValue v ∧ s.inReq = true ∧ inRange s.cfg v = false ∧ r = .inputOutOfRange) ∨
       (e = .outputAccept ∧ s.outValid = false ∧ r = .unsolicitedAccept) ∨
       (∃ image hi ho, e = .reset image hi ho ∧ legalImage s.cfg image = false ∧ r = .illegalImage))

/-- 40_engine.md R122, R124 (rows from `Running`): how a running engine's turn ends. The loop ends in exactly three
ways; a wait state is entered only by `IN` and `OUT`. `AwaitingOutput` and `Faulted` are the spec's decision D14. -/
def Obligations.RunningTurnOutcomes : Prop :=
  ∀ s t : State, s.st = .running → s.enginesTurn = true → step s = .next t →
    (t.st = .cancelled ↔ s.cancel = true) ∧
    (t.st = .halted → ∃ m1 m2 m3, s.AboutToRun (.hlt m1 m2 m3)) ∧
    (t.inReq = true → ∃ m1 m2 m3, s.AboutToRun (.inp m1 m2 m3)) ∧
    (t.outValid = true → ∃ m1 m2 m3, s.AboutToRun (.out m1 m2 m3)) ∧
    (t.st = .running → ∃ i, s.AboutToRun i ∧ i.opcode ∈ [1, 2, 5, 6, 7, 8, 9])

/-- 48_host_interface.md R201: in a wait state every piece of state survives unchanged; only the event the engine
waits for or `Reset` wakes it; `Cancel` sets its latch and does not wake it. That a transition uses up an element of
the host's list is the model's own (log 5), as is that the engine's turn there is a transition that answers the same
state (log 7). `AwaitingOutput` and the latch are the spec's decisions D14 and D17. -/
def Obligations.WaitStatesSurvive : Prop :=
  ∀ s t : State, (s.inReq = true ∨ s.outValid = true) → step s = .next t →
    s.resetNext = true ∨
    (s.inReq = true ∧ ∃ v es, s.host = .inputValue v :: es) ∨
    (s.outValid = true ∧ ∃ es, s.host = .outputAccept :: es) ∨
    t = { s.turnUsed with cancel := s.cancel || s.cancelNext }

/-- 10_state.md R24, 40_engine.md R124 (last rows): a terminal state is left only by `Reset`; any other transition
changes at most the latch. That the engine has turns there which answer the same state is the model's own (log 7);
`Faulted` is the spec's decision D14. -/
def Obligations.TerminalStatesAbsorb : Prop :=
  ∀ s t : State, s.over = true → step s = .next t → s.resetNext = false →
    t = { s.turnUsed with cancel := s.cancel || s.cancelNext }

/-! ## Reset -/

/-- 70_reset_and_hazards.md section 1, 10_state.md section 9: what `Reset` leaves, in any state. The values of `cancel`,
`fr` and the latches are the spec's decisions D14, D17, D20; the empty output stream is the model's (log 6). -/
def Obligations.ResetEstablishesInitialState : Prop :=
  ∀ (s : State) (image : List Word) (hi ho : Bool) (es : List HostEvent),
    s.host = .reset image hi ho :: es → legalImage s.cfg image = true →
    ∃ t, step s = .next t ∧ t.ip = 0 ∧ t.rb = 0 ∧ t.st = .running ∧ t.cancel = false ∧ t.hasIn = hi ∧
      t.hasOut = ho ∧ t.outs = [] ∧ t.host = es ∧ t.cfg = s.cfg ∧
      ∀ a, t.mem.read a = if h : a < image.length then image[a] else 0

/-- 10_state.md R32: the values the spec gives for reset, at `State.reset`, whose image is empty (log 4). -/
def Obligations.ResetStateValues : Prop :=
  State.reset.ip = 0 ∧ State.reset.rb = 0 ∧ State.reset.st = .running ∧ State.reset.cancel = false ∧
    ∀ a, State.reset.mem.read a = 0

/-! ## Operand faults and the order of the checks -/

/-- 40_engine.md R115, 60_exceptions.md R224 (the spec's decisions D3, D4): the lowest parameter word above `AMAX`
decides, once the hook check has passed. -/
def Obligations.ParameterFetchFaults : Prop :=
  ∀ (i : Instr) (s : State) (k : Nat), 1 ≤ k → k ≤ i.paramCount →
    (∀ j, j < k → isAddr s.cfg (s.ip + j) = true) →
    isAddr s.cfg (s.ip + k) = false →
    (i.opcode = 3 → s.hasIn = true) → (i.opcode = 4 → s.hasOut = true) →
    exec i s = .next (faultedWith s .invalidAddress (.address (s.ip + k) (.param k)))

/-- 40_engine.md R116 to R118, 60_exceptions.md R231 row 9 (the spec's decisions D4, D11, D23): in the instructions
with two values and a destination the first invalid effective address decides, after all parameter words are read. -/
def Obligations.FirstInvalidOperandDecides : Prop :=
  ∀ (m1 m2 m3 : Mode) (s : State) (p1 p2 p3 : Word) (ea : Int),
    ParamIs s 1 p1 → ParamIs s 2 p2 → ParamIs s 3 p3 →
    isAddr s.cfg s.ip = true →
    ∀ i ∈ [Instr.add m1 m2 m3, .mul m1 m2 m3, .lt m1 m2 m3, .eq m1 m2 m3],
      (OperandBad s 1 m1 ea →
        exec i s = .next (faultedWith s .invalidAddress (.address ea (.operand 1)))) ∧
      (∀ a, ValueIs s 1 m1 a → OperandBad s 2 m2 ea →
        exec i s = .next (faultedWith s .invalidAddress (.address ea (.operand 2)))) ∧
      (∀ a b, ValueIs s 1 m1 a → ValueIs s 2 m2 b → OperandBad s 3 m3 ea →
        exec i s = .next (faultedWith s .invalidAddress (.address ea (.operand 3))))

/-- 40_engine.md R116 to R118 for the other formats: `JT` and `JF` resolve `p2` also when they will not jump (the spec's
decision D23); a faulting `IN` requests nothing and a faulting `OUT` presents nothing (D12). -/
def Obligations.InvalidOperandFaults : Prop :=
  ∀ (m1 m2 n2 n3 : Mode) (s : State) (p2 : Word) (ea : Int),
    isAddr s.cfg s.ip = true →
    (ParamIs s 2 p2 → ∀ i ∈ [Instr.jt m1 m2 n3, .jf m1 m2 n3],
      (OperandBad s 1 m1 ea → exec i s = .next (faultedWith s .invalidAddress (.address ea (.operand 1)))) ∧
      (∀ a, ValueIs s 1 m1 a → OperandBad s 2 m2 ea →
        exec i s = .next (faultedWith s .invalidAddress (.address ea (.operand 2))))) ∧
    (OperandBad s 1 m1 ea →
      exec (.arb m1 n2 n3) s = .next (faultedWith s .invalidAddress (.address ea (.operand 1))) ∧
      (s.hasIn = true →
        exec (.inp m1 n2 n3) s = .next (faultedWith s .invalidAddress (.address ea (.operand 1)))) ∧
      (s.hasOut = true →
        exec (.out m1 n2 n3) s = .next (faultedWith s .invalidAddress (.address ea (.operand 1)))))

/-! ## The instructions -/

/-- 41_arithmetic.md, `ADD`: the exact sum of the two values is written to the destination; nothing else changes but
`ip`. It completes whenever the operands resolve and the sum is a word. -/
def Obligations.AddWritesExactSum : Prop :=
  ∀ (m1 m2 m3 : Mode) (s : State) (a b : Word) (d : Nat),
    ValueIs s 1 m1 a → ValueIs s 2 m2 b → DestIs s 3 m3 d → inRange s.cfg (a + b) = true →
    exec (.add m1 m2 m3) s = .next { s with mem := s.mem.write d (a + b), ip := s.ip + 4 }

/-- 41_arithmetic.md, `MUL`: the exact product. -/
def Obligations.MulWritesExactProduct : Prop :=
  ∀ (m1 m2 m3 : Mode) (s : State) (a b : Word) (d : Nat),
    ValueIs s 1 m1 a → ValueIs s 2 m2 b → DestIs s 3 m3 d → inRange s.cfg (a * b) = true →
    exec (.mul m1 m2 m3) s = .next { s with mem := s.mem.write d (a * b), ip := s.ip + 4 }

/-- 41_arithmetic.md R142 c, 60_exceptions.md R228 (the spec's decision D2): a result that is no word faults with the
exact result, and nothing is written. -/
def Obligations.ResultOutOfRangeFaults : Prop :=
  ∀ (m1 m2 m3 : Mode) (s : State) (a b : Word) (d : Nat), isAddr s.cfg s.ip = true →
    (ValueIs s 1 m1 a → ValueIs s 2 m2 b → DestIs s 3 m3 d → inRange s.cfg (a + b) = false →
      exec (.add m1 m2 m3) s = .next (faultedWith s .valueOutOfRange (.result (a + b)))) ∧
    (ValueIs s 1 m1 a → ValueIs s 2 m2 b → DestIs s 3 m3 d → inRange s.cfg (a * b) = false →
      exec (.mul m1 m2 m3) s = .next (faultedWith s .valueOutOfRange (.result (a * b)))) ∧
    (ValueIs s 1 m1 a → inRange s.cfg (s.rb + a) = false →
      exec (.arb m1 m2 m3) s = .next (faultedWith s .valueOutOfRange (.result (s.rb + a))))

/-- 44_compare.md R170: `LT` writes exactly 1 or 0, by the signed comparison, in both cases. The word and the length are as given; a word
of this opcode is refused only for the three decode faults named; where an operand does not resolve (R115 to R117),
`InvalidAddress` is raised, never `ValueOutOfRange`, and nothing is written. -/
def Obligations.LtWritesTruth : Prop :=
  ∀ (m1 m2 m3 : Mode) (s : State),
    encode (.lt m1 m2 m3) = 10000 * (m3.digit : Int) + 1000 * m2.digit + 100 * m1.digit + 7 ∧
    (Instr.lt m1 m2 m3).length = 4 ∧
    (∀ (n : Nat) (e : DecodeFault), n % 100 = 7 → decode n = .error e →
      e = .excessDigits ∨ (∃ k d, e = .reservedMode k d) ∨ (e = .immediateWrite 3 ∧ n / 10000 % 10 = 1)) ∧
    (∀ a b d, ValueIs s 1 m1 a → ValueIs s 2 m2 b → DestIs s 3 m3 d →
      exec (.lt m1 m2 m3) s =
        .next { s with mem := s.mem.write d (if a < b then 1 else 0), ip := s.ip + 4 }) ∧
    (m3 ≠ .immediate → (¬ ∃ a b d, ValueIs s 1 m1 a ∧ ValueIs s 2 m2 b ∧ DestIs s 3 m3 d) →
      ∃ fr, exec (.lt m1 m2 m3) s = .next { s with st := .faulted fr } ∧ fr.cause = .invalidAddress)

/-- 44_compare.md R171: `EQ` writes exactly 1 or 0, by equality of the integer values, in both cases. The word and the length are as given; a word
of this opcode is refused only for the three decode faults named; where an operand does not resolve (R115 to R117),
`InvalidAddress` is raised, never `ValueOutOfRange`, and nothing is written. -/
def Obligations.EqWritesTruth : Prop :=
  ∀ (m1 m2 m3 : Mode) (s : State),
    encode (.eq m1 m2 m3) = 10000 * (m3.digit : Int) + 1000 * m2.digit + 100 * m1.digit + 8 ∧
    (Instr.eq m1 m2 m3).length = 4 ∧
    (∀ (n : Nat) (e : DecodeFault), n % 100 = 8 → decode n = .error e →
      e = .excessDigits ∨ (∃ k d, e = .reservedMode k d) ∨ (e = .immediateWrite 3 ∧ n / 10000 % 10 = 1)) ∧
    (∀ a b d, ValueIs s 1 m1 a → ValueIs s 2 m2 b → DestIs s 3 m3 d →
      exec (.eq m1 m2 m3) s =
        .next { s with mem := s.mem.write d (if a = b then 1 else 0), ip := s.ip + 4 }) ∧
    (m3 ≠ .immediate → (¬ ∃ a b d, ValueIs s 1 m1 a ∧ ValueIs s 2 m2 b ∧ DestIs s 3 m3 d) →
      ∃ fr, exec (.eq m1 m2 m3) s = .next { s with st := .faulted fr } ∧ fr.cause = .invalidAddress)

/-- 43_jumps.md, `JT`: any non-zero value jumps to the value `t` of the second operand, which may be the jump's own
address (the spec's decision D16); zero advances by 3, whatever value `t` is. -/
def Obligations.JumpIfTrueTransfers : Prop :=
  ∀ (m1 m2 n3 : Mode) (s : State) (a t : Word), ValueIs s 1 m1 a → ValueIs s 2 m2 t →
    (∀ n, a ≠ 0 → validAddr s.cfg t = some n → exec (.jt m1 m2 n3) s = .next { s with ip := n }) ∧
    (a = 0 → exec (.jt m1 m2 n3) s = .next { s with ip := s.ip + 3 })

/-- 43_jumps.md, `JF`: exactly zero jumps; any other value advances by 3. -/
def Obligations.JumpIfFalseTransfers : Prop :=
  ∀ (m1 m2 n3 : Mode) (s : State) (a t : Word), ValueIs s 1 m1 a → ValueIs s 2 m2 t →
    (∀ n, a = 0 → validAddr s.cfg t = some n → exec (.jf m1 m2 n3) s = .next { s with ip := n }) ∧
    (a ≠ 0 → exec (.jf m1 m2 n3) s = .next { s with ip := s.ip + 3 })

/-- 43_jumps.md (the spec's decision D5): a taken jump to an invalid address faults itself, with `ip` unchanged. -/
def Obligations.TakenJumpToInvalidTargetFaults : Prop :=
  ∀ (m1 m2 n3 : Mode) (s : State) (a t : Word), isAddr s.cfg s.ip = true →
    ValueIs s 1 m1 a → ValueIs s 2 m2 t → validAddr s.cfg t = none →
    (a ≠ 0 → exec (.jt m1 m2 n3) s = .next (faultedWith s .invalidAddress (.address t .target))) ∧
    (a = 0 → exec (.jf m1 m2 n3) s = .next (faultedWith s .invalidAddress (.address t .target)))

/-- 45_relbase.md, `ARB`: the value, resolved with the old `rb`, is added to `rb`; no memory is written. -/
def Obligations.ArbAddsToRelativeBase : Prop :=
  ∀ (m1 n2 n3 : Mode) (s : State) (a : Word), ValueIs s 1 m1 a → inRange s.cfg (s.rb + a) = true →
    exec (.arb m1 n2 n3) s = .next { s with rb := s.rb + a, ip := s.ip + 2 }

/-- 46_halt.md, `HLT`, at the step: the engine is `Halted` and nothing else changes. That `ip` stays is the spec's
decision D15. -/
def Obligations.HltHalts : Prop :=
  ∀ (m1 m2 m3 : Mode) (s : State),
    exec (.hlt m1 m2 m3) s = .next { s with st := .halted } ∧
    (s.AboutToRun (.hlt m1 m2 m3) → step s = .next { s.turnUsed with st := .halted })

/-- 42_io.md, `IN`, issue: the destination is held and exactly one input request is outstanding; `mem`, `ip`, `rb` do
not change (40_engine.md R121; the latch is the spec's decision D14). -/
def Obligations.InputIssues : Prop :=
  ∀ (m1 n2 n3 : Mode) (s : State) (d : Nat), s.hasIn = true → DestIs s 1 m1 d →
    exec (.inp m1 n2 n3) s = .next { s with st := .awaitingInput d }

/-- 42_io.md, `IN`, completion: the host's word is stored unchanged at the held destination, `ip` goes on by 2, and the
engine runs; nothing else changes. -/
def Obligations.InputCompletes : Prop :=
  ∀ (s : State) (d : Nat) (v : Word) (es : List HostEvent),
    s.st = .awaitingInput d → s.host = .inputValue v :: es → inRange s.cfg v = true →
    step s = .next { s with mem := s.mem.write d v, ip := s.ip + 2, st := .running, host := es }

/-- 42_io.md, `OUT`, issue: the value is presented; `mem`, `ip`, `rb` do not change. -/
def Obligations.OutputIssues : Prop :=
  ∀ (m1 n2 n3 : Mode) (s : State) (v : Word), s.hasOut = true → ValueIs s 1 m1 v →
    exec (.out m1 n2 n3) s = .next { s with st := .awaitingOutput v }

/-- 42_io.md, `OUT`, completion: the presented value is the next element of the output stream. -/
def Obligations.OutputCompletes : Prop :=
  ∀ (s : State) (v : Word) (es : List HostEvent),
    s.st = .awaitingOutput v → s.host = .outputAccept :: es →
    step s = .next { s with outs := s.outs ++ [v], ip := s.ip + 2, st := .running, host := es }

/-- 10_state.md section 4: the hook bits are the reset arguments, constant until the next reset; no instruction writes
them; opcode 3 or 4 executed without its hook is fatal. That the two hooks have separate causes is the spec's decision
D20; that a missing hook wins over an unreadable parameter word and a bad operand is its decision D11. -/
def Obligations.HookBits : Prop :=
  (∀ s t : State, step s = .next t →
    (s.resetNext = false → t.hasIn = s.hasIn ∧ t.hasOut = s.hasOut) ∧
    (∀ image hi ho es, s.host = .reset image hi ho :: es → t.hasIn = hi ∧ t.hasOut = ho)) ∧
  (∀ (i : Instr) (s t : State), exec i s = .next t → t.hasIn = s.hasIn ∧ t.hasOut = s.hasOut) ∧
  (∀ (m1 n2 n3 : Mode) (s : State), isAddr s.cfg s.ip = true →
    (s.hasIn = false → exec (.inp m1 n2 n3) s = .next (faultedWith s .missingInputHook .nothing)) ∧
    (s.hasOut = false → exec (.out m1 n2 n3) s = .next (faultedWith s .missingOutputHook .nothing)))

/-! ## Frames -/

/-- Frame of the instructions that store (41_arithmetic.md, 44_compare.md): only the destination cell, `ip` and, on a
fault, `st` change. Where the destination does not resolve, no address is stored to. -/
def Obligations.StoringFrame : Prop :=
  ∀ (m1 m2 m3 : Mode) (s t : State),
    ∀ i ∈ [Instr.add m1 m2 m3, .mul m1 m2 m3, .lt m1 m2 m3, .eq m1 m2 m3], exec i s = .next t →
      t.rb = s.rb ∧ t.cancel = s.cancel ∧ t.hasIn = s.hasIn ∧ t.hasOut = s.hasOut ∧ t.outs = s.outs ∧
      t.cfg = s.cfg ∧ t.host = s.host ∧ (t.st = s.st ∨ t.fr.isSome = true) ∧
      ∀ a, (∀ d, DestIs s 3 m3 d → a ≠ d) → t.mem.read a = s.mem.read a

/-- Frame of the others, `IN` and `OUT` at their issue: no cell of memory changes; only `ARB` may change `rb`, only the
jumps and `ARB` change `ip`, and only the two I/O instructions, `HLT` and a fault change `st`. That `HLT` leaves `ip`
is the spec's decision D15; the states `AwaitingOutput` and `Faulted` are its decision D14. -/
def Obligations.NonStoringFrame : Prop :=
  ∀ (m1 m2 m3 : Mode) (s t : State),
    ∀ i ∈ [Instr.inp m1 m2 m3, .out m1 m2 m3, .jt m1 m2 m3, .jf m1 m2 m3, .arb m1 m2 m3, .hlt m1 m2 m3],
      exec i s = .next t →
      t.mem = s.mem ∧ t.cancel = s.cancel ∧ t.hasIn = s.hasIn ∧ t.hasOut = s.hasOut ∧ t.outs = s.outs ∧
      t.cfg = s.cfg ∧ t.host = s.host ∧ (i.opcode ≠ 9 → t.rb = s.rb) ∧
      (i.opcode ∉ [5, 6, 9] → t.ip = s.ip) ∧
      (t.st = s.st ∨ t.fr.isSome = true ∨ (i.opcode = 3 ∧ t.inReq = true) ∨
        (i.opcode = 4 ∧ t.outValid = true) ∨ (i.opcode = 99 ∧ t.st = .halted))

/-! ## Rules about the whole machine -/

/-- 40_engine.md R120: where `ip` goes. A step that ends in `Running` advances by the instruction's length, or is a
taken jump to the value of its second operand; any other end leaves `ip` (for `HLT` the spec's decision D15). -/
def Obligations.InstructionPointerMoves : Prop :=
  ∀ (i : Instr) (s t : State), s.st = .running → exec i s = .next t →
    (t.st ≠ .running → t.ip = s.ip) ∧
    (t.st = .running → i.opcode ∉ [5, 6] → t.ip = s.ip + i.length) ∧
    (t.st = .running → i.opcode ∈ [5, 6] →
      ∃ a v, ValueIs s 1 i.modes.1 a ∧ ValueIs s 2 i.modes.2.1 v ∧
        if (i.opcode = 5 ∧ a ≠ 0) ∨ (i.opcode = 6 ∧ a = 0) then validAddr s.cfg v = some t.ip
        else t.ip = s.ip + i.length)

/-- 60_exceptions.md section 2: entering `Faulted` writes the record, with `addr = ip`, `raw = mem[ip]` (no value if the
fetch itself faulted) and the cause's detail, and changes nothing else. -/
def Obligations.FaultEntry : Prop :=
  ∀ s t : State, s.st = .running → s.enginesTurn = true → step s = .next t → ∀ fr, t.st = .faulted fr →
    t = { s.turnUsed with st := .faulted fr } ∧ fr.addr = s.ip ∧
    fr.raw = (if isAddr s.cfg s.ip = true then some (s.mem.read s.ip) else none) ∧
    recordOk s.cfg fr

/-- 10_state.md section 4 (`rb`): "mutated only by the 'adjust relative base' opcode": any step that changes `rb` runs an
`ARB` or is a reset. -/
def Obligations.OnlyArbWritesRelativeBase : Prop :=
  ∀ s t : State, step s = .next t → t.rb ≠ s.rb →
    s.resetNext = true ∨ ∃ m1 m2 m3, s.AboutToRun (.arb m1 m2 m3)

/-- 10_state.md section 8, 20_memory.md section 2: memory changes only by a storing instruction or a completed input, in
exactly one cell; no other event of the host writes it. -/
def Obligations.OneCellWrittenByItsInstruction : Prop :=
  ∀ s t : State, step s = .next t → s.resetNext = false →
    t.mem = s.mem ∨
    (∃ i d v, s.AboutToRun i ∧ DestIs s 3 i.modes.2.2 d ∧ i.opcode ∈ [1, 2, 7, 8] ∧ t.mem = s.mem.write d v) ∨
    (∃ d v es, s.st = .awaitingInput d ∧ s.host = .inputValue v :: es ∧ t.mem = s.mem.write d v)

/-- 10_state.md section 4 (`cancel`): a latch: only `Cancel` sets it and only `Reset` clears it (the spec's decision
D17). -/
def Obligations.CancelIsALatch : Prop :=
  ∀ s t : State, step s = .next t → s.resetNext = false → t.cancel = (s.cancel || s.cancelNext)

/-- 48_host_interface.md R194: the output stream is the sequence of the presented values at the `OutputAccept` events,
in order: only such an event lengthens it, by the presented value. -/
def Obligations.OutputStreamGrowsByAccept : Prop :=
  ∀ s t : State, step s = .next t → s.resetNext = false →
    (∀ es, s.host = .outputAccept :: es → ∃ v, s.pendVal = some v ∧ t.outs = s.outs ++ [v]) ∧
    ((∀ es, s.host ≠ .outputAccept :: es) → t.outs = s.outs)

/-- 48_host_interface.md R200: a value becomes available to a consumer only by the step that issues an `OUT`, and it is
the value of that instruction's operand. -/
def Obligations.ValueOfferedOnlyByOut : Prop :=
  ∀ s t : State, step s = .next t → s.resetNext = false → t.offered ≠ s.offered →
    ∃ m1 m2 m3 v, s.AboutToRun (.out m1 m2 m3) ∧ ValueIs s 1 m1 v ∧ t.offered = s.offered ++ [v]

/-- 20_memory.md section 4, instruction-fetch coherence: a sum stored where the next instruction stands is what the very
next step fetches and decodes. -/
def Obligations.StoreSeenByNextFetch : Prop :=
  ∀ (m1 m2 m3 : Mode) (s : State) (a b : Word) (j : Instr),
    s.AboutToRun (.add m1 m2 m3) → ValueIs s 1 m1 a → ValueIs s 2 m2 b → DestIs s 3 m3 (s.ip + 4) →
    inRange s.cfg (a + b) = true → s.turnUsed.enginesTurn = true → decode (a + b) = .ok j →
    ∃ t, step s = .next t ∧ t.AboutToRun j ∧ step t = exec j t.turnUsed

/-- That the host's timing affects nothing but when things happen is 40_engine.md section 3; the form is the model's
own: that turns are a list (log 5), and that a waiting engine has turns which answer the same state and are no steps of
the machine (log 7). An answer that comes after any number of them leads to the same outcome as one that comes at
once. -/
def Obligations.HostDelayInvisible : Prop :=
  ∀ (s : State) (k : Nat) (e : HostEvent) (es : List HostEvent), (s.inReq = true ∨ s.outValid = true) →
    Host.Core.run Sys2Proof.core (k + 1) { s with host := List.replicate k .engineTurn ++ e :: es } =
      step { s with host := e :: es }

/-- 48_host_interface.md section 3 (`Peek`, the spec's decision D25): it returns the cell of a valid address, nothing for
any other, in any state. -/
def Obligations.PeekReadsMemory : Prop :=
  ∀ (s : State) (a : Int),
    (∀ n, validAddr s.cfg a = some n → s.peek a = some (s.mem.read n)) ∧
    (validAddr s.cfg a = none → s.peek a = none)

/-- 48_host_interface.md R199: instances share nothing: a transition of one leaves every other as it was. -/
def Obligations.InstancesShareNothing : Prop :=
  ∀ (sys sys' : Instances) (k : Nat), sys.stepAt k = .next sys' →
    sys'.length = sys.length ∧ (∀ j, j ≠ k → sys'[j]? = sys[j]?) ∧
    ∃ s t, sys[k]? = some s ∧ step s = .next t ∧ sys'[k]? = some t

/-! ## Headline results -/

/-- Every transition keeps the invariant (`State.Inv`): canonical memory holding words at valid addresses, `rb` and the
output stream words, the waiting latches equal to the operands re-evaluated (10_state.md R28), a `HLT` at `ip` in
`Halted`, the record of the instruction at `ip` in `Faulted`. -/
def Obligations.StepKeepsInvariant : Prop :=
  ∀ s t : State, s.Inv → step s = .next t → t.Inv

/-- The invariant holds after reset. -/
def Obligations.ResetHasInvariant : Prop := State.reset.Inv

/-- 90_conflicts.md C9: a finite instance differs from the unbounded machine only by faulting (or refusing), never by
computing a different value. -/
def Obligations.FiniteMachineRefinesInfinite : Prop :=
  ∀ s t : State, step s = .next t → t.fr = none → step s.onInfinite = .next t.onInfinite
end

