-- ==== Sys2Proof/Laws/State.lean ====
section
/-! SUPPORT. One lemma per field per named update of State, so that no later proof unfolds a record update. -/
namespace Sys2Proof.Machine

@[simp] theorem State.store_cfg (s : State) (d : Nat) (v : Word) : (s.store d v).cfg = s.cfg := rfl
@[simp] theorem State.store_mem (s : State) (d : Nat) (v : Word) : (s.store d v).mem = s.mem.write d v := rfl
@[simp] theorem State.store_ip (s : State) (d : Nat) (v : Word) : (s.store d v).ip = s.ip := rfl
@[simp] theorem State.store_rb (s : State) (d : Nat) (v : Word) : (s.store d v).rb = s.rb := rfl
@[simp] theorem State.store_st (s : State) (d : Nat) (v : Word) : (s.store d v).st = s.st := rfl
@[simp] theorem State.store_cancel (s : State) (d : Nat) (v : Word) : (s.store d v).cancel = s.cancel := rfl
@[simp] theorem State.store_hasIn (s : State) (d : Nat) (v : Word) : (s.store d v).hasIn = s.hasIn := rfl
@[simp] theorem State.store_hasOut (s : State) (d : Nat) (v : Word) : (s.store d v).hasOut = s.hasOut := rfl
@[simp] theorem State.store_outs (s : State) (d : Nat) (v : Word) : (s.store d v).outs = s.outs := rfl
@[simp] theorem State.store_host (s : State) (d : Nat) (v : Word) : (s.store d v).host = s.host := rfl

@[simp] theorem State.setIp_cfg (s : State) (n : Nat) : (s.setIp n).cfg = s.cfg := rfl
@[simp] theorem State.setIp_mem (s : State) (n : Nat) : (s.setIp n).mem = s.mem := rfl
@[simp] theorem State.setIp_ip (s : State) (n : Nat) : (s.setIp n).ip = n := rfl
@[simp] theorem State.setIp_rb (s : State) (n : Nat) : (s.setIp n).rb = s.rb := rfl
@[simp] theorem State.setIp_st (s : State) (n : Nat) : (s.setIp n).st = s.st := rfl
@[simp] theorem State.setIp_cancel (s : State) (n : Nat) : (s.setIp n).cancel = s.cancel := rfl
@[simp] theorem State.setIp_hasIn (s : State) (n : Nat) : (s.setIp n).hasIn = s.hasIn := rfl
@[simp] theorem State.setIp_hasOut (s : State) (n : Nat) : (s.setIp n).hasOut = s.hasOut := rfl
@[simp] theorem State.setIp_outs (s : State) (n : Nat) : (s.setIp n).outs = s.outs := rfl
@[simp] theorem State.setIp_host (s : State) (n : Nat) : (s.setIp n).host = s.host := rfl

@[simp] theorem State.advance_cfg (s : State) (n : Nat) : (s.advance n).cfg = s.cfg := rfl
@[simp] theorem State.advance_mem (s : State) (n : Nat) : (s.advance n).mem = s.mem := rfl
@[simp] theorem State.advance_ip (s : State) (n : Nat) : (s.advance n).ip = s.ip + n := rfl
@[simp] theorem State.advance_rb (s : State) (n : Nat) : (s.advance n).rb = s.rb := rfl
@[simp] theorem State.advance_st (s : State) (n : Nat) : (s.advance n).st = s.st := rfl
@[simp] theorem State.advance_cancel (s : State) (n : Nat) : (s.advance n).cancel = s.cancel := rfl
@[simp] theorem State.advance_hasIn (s : State) (n : Nat) : (s.advance n).hasIn = s.hasIn := rfl
@[simp] theorem State.advance_hasOut (s : State) (n : Nat) : (s.advance n).hasOut = s.hasOut := rfl
@[simp] theorem State.advance_outs (s : State) (n : Nat) : (s.advance n).outs = s.outs := rfl
@[simp] theorem State.advance_host (s : State) (n : Nat) : (s.advance n).host = s.host := rfl

@[simp] theorem State.setRb_cfg (s : State) (r : Word) : (s.setRb r).cfg = s.cfg := rfl
@[simp] theorem State.setRb_mem (s : State) (r : Word) : (s.setRb r).mem = s.mem := rfl
@[simp] theorem State.setRb_ip (s : State) (r : Word) : (s.setRb r).ip = s.ip := rfl
@[simp] theorem State.setRb_rb (s : State) (r : Word) : (s.setRb r).rb = r := rfl
@[simp] theorem State.setRb_st (s : State) (r : Word) : (s.setRb r).st = s.st := rfl
@[simp] theorem State.setRb_cancel (s : State) (r : Word) : (s.setRb r).cancel = s.cancel := rfl
@[simp] theorem State.setRb_hasIn (s : State) (r : Word) : (s.setRb r).hasIn = s.hasIn := rfl
@[simp] theorem State.setRb_hasOut (s : State) (r : Word) : (s.setRb r).hasOut = s.hasOut := rfl
@[simp] theorem State.setRb_outs (s : State) (r : Word) : (s.setRb r).outs = s.outs := rfl
@[simp] theorem State.setRb_host (s : State) (r : Word) : (s.setRb r).host = s.host := rfl

@[simp] theorem State.setSt_cfg (s : State) (e : EngineState) : (s.setSt e).cfg = s.cfg := rfl
@[simp] theorem State.setSt_mem (s : State) (e : EngineState) : (s.setSt e).mem = s.mem := rfl
@[simp] theorem State.setSt_ip (s : State) (e : EngineState) : (s.setSt e).ip = s.ip := rfl
@[simp] theorem State.setSt_rb (s : State) (e : EngineState) : (s.setSt e).rb = s.rb := rfl
@[simp] theorem State.setSt_st (s : State) (e : EngineState) : (s.setSt e).st = e := rfl
@[simp] theorem State.setSt_cancel (s : State) (e : EngineState) : (s.setSt e).cancel = s.cancel := rfl
@[simp] theorem State.setSt_hasIn (s : State) (e : EngineState) : (s.setSt e).hasIn = s.hasIn := rfl
@[simp] theorem State.setSt_hasOut (s : State) (e : EngineState) : (s.setSt e).hasOut = s.hasOut := rfl
@[simp] theorem State.setSt_outs (s : State) (e : EngineState) : (s.setSt e).outs = s.outs := rfl
@[simp] theorem State.setSt_host (s : State) (e : EngineState) : (s.setSt e).host = s.host := rfl

@[simp] theorem State.setCancel_cfg (s : State) : (s.setCancel).cfg = s.cfg := rfl
@[simp] theorem State.setCancel_mem (s : State) : (s.setCancel).mem = s.mem := rfl
@[simp] theorem State.setCancel_ip (s : State) : (s.setCancel).ip = s.ip := rfl
@[simp] theorem State.setCancel_rb (s : State) : (s.setCancel).rb = s.rb := rfl
@[simp] theorem State.setCancel_st (s : State) : (s.setCancel).st = s.st := rfl
@[simp] theorem State.setCancel_cancel (s : State) : (s.setCancel).cancel = true := rfl
@[simp] theorem State.setCancel_hasIn (s : State) : (s.setCancel).hasIn = s.hasIn := rfl
@[simp] theorem State.setCancel_hasOut (s : State) : (s.setCancel).hasOut = s.hasOut := rfl
@[simp] theorem State.setCancel_outs (s : State) : (s.setCancel).outs = s.outs := rfl
@[simp] theorem State.setCancel_host (s : State) : (s.setCancel).host = s.host := rfl

@[simp] theorem State.emit_cfg (s : State) (v : Word) : (s.emit v).cfg = s.cfg := rfl
@[simp] theorem State.emit_mem (s : State) (v : Word) : (s.emit v).mem = s.mem := rfl
@[simp] theorem State.emit_ip (s : State) (v : Word) : (s.emit v).ip = s.ip := rfl
@[simp] theorem State.emit_rb (s : State) (v : Word) : (s.emit v).rb = s.rb := rfl
@[simp] theorem State.emit_st (s : State) (v : Word) : (s.emit v).st = s.st := rfl
@[simp] theorem State.emit_cancel (s : State) (v : Word) : (s.emit v).cancel = s.cancel := rfl
@[simp] theorem State.emit_hasIn (s : State) (v : Word) : (s.emit v).hasIn = s.hasIn := rfl
@[simp] theorem State.emit_hasOut (s : State) (v : Word) : (s.emit v).hasOut = s.hasOut := rfl
@[simp] theorem State.emit_outs (s : State) (v : Word) : (s.emit v).outs = s.outs ++ [v] := rfl
@[simp] theorem State.emit_host (s : State) (v : Word) : (s.emit v).host = s.host := rfl

@[simp] theorem State.setHost_cfg (s : State) (es : List HostEvent) : (s.setHost es).cfg = s.cfg := rfl
@[simp] theorem State.setHost_mem (s : State) (es : List HostEvent) : (s.setHost es).mem = s.mem := rfl
@[simp] theorem State.setHost_ip (s : State) (es : List HostEvent) : (s.setHost es).ip = s.ip := rfl
@[simp] theorem State.setHost_rb (s : State) (es : List HostEvent) : (s.setHost es).rb = s.rb := rfl
@[simp] theorem State.setHost_st (s : State) (es : List HostEvent) : (s.setHost es).st = s.st := rfl
@[simp] theorem State.setHost_cancel (s : State) (es : List HostEvent) : (s.setHost es).cancel = s.cancel := rfl
@[simp] theorem State.setHost_hasIn (s : State) (es : List HostEvent) : (s.setHost es).hasIn = s.hasIn := rfl
@[simp] theorem State.setHost_hasOut (s : State) (es : List HostEvent) : (s.setHost es).hasOut = s.hasOut := rfl
@[simp] theorem State.setHost_outs (s : State) (es : List HostEvent) : (s.setHost es).outs = s.outs := rfl
@[simp] theorem State.setHost_host (s : State) (es : List HostEvent) : (s.setHost es).host = es := rfl

@[simp] theorem State.turnUsed_cfg (s : State) : (s.turnUsed).cfg = s.cfg := rfl
@[simp] theorem State.turnUsed_mem (s : State) : (s.turnUsed).mem = s.mem := rfl
@[simp] theorem State.turnUsed_ip (s : State) : (s.turnUsed).ip = s.ip := rfl
@[simp] theorem State.turnUsed_rb (s : State) : (s.turnUsed).rb = s.rb := rfl
@[simp] theorem State.turnUsed_st (s : State) : (s.turnUsed).st = s.st := rfl
@[simp] theorem State.turnUsed_cancel (s : State) : (s.turnUsed).cancel = s.cancel := rfl
@[simp] theorem State.turnUsed_hasIn (s : State) : (s.turnUsed).hasIn = s.hasIn := rfl
@[simp] theorem State.turnUsed_hasOut (s : State) : (s.turnUsed).hasOut = s.hasOut := rfl
@[simp] theorem State.turnUsed_outs (s : State) : (s.turnUsed).outs = s.outs := rfl
@[simp] theorem State.turnUsed_host (s : State) : (s.turnUsed).host = s.host.tail := rfl

@[simp] theorem State.onInfinite_cfg (s : State) : (s.onInfinite).cfg = Config.infinite := rfl
@[simp] theorem State.onInfinite_mem (s : State) : (s.onInfinite).mem = s.mem := rfl
@[simp] theorem State.onInfinite_ip (s : State) : (s.onInfinite).ip = s.ip := rfl
@[simp] theorem State.onInfinite_rb (s : State) : (s.onInfinite).rb = s.rb := rfl
@[simp] theorem State.onInfinite_st (s : State) : (s.onInfinite).st = s.st := rfl
@[simp] theorem State.onInfinite_cancel (s : State) : (s.onInfinite).cancel = s.cancel := rfl
@[simp] theorem State.onInfinite_hasIn (s : State) : (s.onInfinite).hasIn = s.hasIn := rfl
@[simp] theorem State.onInfinite_hasOut (s : State) : (s.onInfinite).hasOut = s.hasOut := rfl
@[simp] theorem State.onInfinite_outs (s : State) : (s.onInfinite).outs = s.outs := rfl
@[simp] theorem State.onInfinite_host (s : State) : (s.onInfinite).host = s.host := rfl

@[simp] theorem raise_cfg (c : Condition) (s : State) : (raise c s).cfg = s.cfg := rfl
@[simp] theorem raise_mem (c : Condition) (s : State) : (raise c s).mem = s.mem := rfl
@[simp] theorem raise_ip (c : Condition) (s : State) : (raise c s).ip = s.ip := rfl
@[simp] theorem raise_rb (c : Condition) (s : State) : (raise c s).rb = s.rb := rfl
@[simp] theorem raise_st (c : Condition) (s : State) : (raise c s).st = .faulted (faultRecord c s) := rfl
@[simp] theorem raise_cancel (c : Condition) (s : State) : (raise c s).cancel = s.cancel := rfl
@[simp] theorem raise_hasIn (c : Condition) (s : State) : (raise c s).hasIn = s.hasIn := rfl
@[simp] theorem raise_hasOut (c : Condition) (s : State) : (raise c s).hasOut = s.hasOut := rfl
@[simp] theorem raise_outs (c : Condition) (s : State) : (raise c s).outs = s.outs := rfl
@[simp] theorem raise_host (c : Condition) (s : State) : (raise c s).host = s.host := rfl

/-- Two states with equal fields are equal. -/
@[ext] theorem State.ext_fields {s t : State} (h1 : s.cfg = t.cfg) (h2 : s.mem = t.mem) (h3 : s.ip = t.ip)
    (h4 : s.rb = t.rb) (h5 : s.st = t.st) (h6 : s.cancel = t.cancel) (h7 : s.hasIn = t.hasIn)
    (h8 : s.hasOut = t.hasOut) (h9 : s.outs = t.outs) (h10 : s.host = t.host) : s = t := by
  cases s
  cases t
  simp_all

end Sys2Proof.Machine
end

