-- ==== Sys2Proof/Laws/Ops.lean ====
section
/-! SUPPORT. One lemma per shared operation that says everything it can do. -/
namespace Sys2Proof.Machine

/-! ## Addresses -/

@[simp] theorem validAddr_negSucc (c : Config) (n : Nat) : validAddr c (Int.negSucc n) = none := rfl

@[simp] theorem validAddr_natCast (c : Config) (n : Nat) :
    validAddr c (n : Int) = if isAddr c n then some n else none := rfl

@[simp] theorem validAddr_natCast_add (c : Config) (n k : Nat) :
    validAddr c ((n : Int) + (k : Int)) = if isAddr c (n + k) then some (n + k) else none := by
  rw [← Nat.cast_add, validAddr_natCast]

theorem validAddr_eq_some {c : Config} {a : Int} {n : Nat} :
    validAddr c a = some n ↔ a = n ∧ isAddr c n = true := by
  cases a with
  | negSucc k => simp [validAddr]
  | ofNat k =>
    rw [Int.ofNat_eq_natCast, validAddr_natCast, Nat.cast_inj]
    constructor
    · intro h
      split at h
      · cases h; exact ⟨rfl, by assumption⟩
      · exact absurd h (by simp)
    · rintro ⟨rfl, h⟩
      exact if_pos h

/-- Addresses below a valid one are valid. -/
theorem isAddr_of_le {c : Config} {n k : Nat} (h : isAddr c n = true) (hk : k ≤ n) : isAddr c k = true := by
  unfold isAddr at *
  split at h <;> simp_all
  omega

/-- What is valid on a bounded machine is valid on the unbounded one. -/
theorem validAddr_infinite {c : Config} {a : Int} {n : Nat} (h : validAddr c a = some n) :
    validAddr Config.infinite a = some n := by
  obtain ⟨rfl, -⟩ := validAddr_eq_some.1 h
  rfl

theorem inRange_infinite (v : Int) : inRange Config.infinite v = true := rfl

/-- 0 and 1 are words of every legal width. -/
theorem inRange_bit {c : Config} (h : c.wf = true) (b : Prop) [Decidable b] :
    inRange c (if b then 1 else 0) = true := by
  unfold inRange
  unfold Config.wf at h
  cases hw : c.width with
  | unbounded => rfl
  | bits w =>
    simp only [hw, decide_eq_true_eq] at h
    have : (2 : Nat) ^ 1 ≤ 2 ^ (w - 1) := Nat.pow_le_pow_right (by omega) (by omega)
    simp only [Bool.and_eq_true, decide_eq_true_eq, Int.ofNat_eq_natCast]
    generalize (2 : Nat) ^ (w - 1) = p at this
    split <;> omega

theorem inRange_zero {c : Config} (h : c.wf = true) : inRange c 0 = true := by
  simpa using inRange_bit h False

/-! ## Checked access -/

theorem checkAddr_eq_ok {s : State} {a : Int} {acc : Access} {n : Nat} :
    checkAddr s a acc = .ok n ↔ validAddr s.cfg a = some n := by
  unfold checkAddr
  split <;> simp_all

theorem checkAddr_eq_error {s : State} {a : Int} {acc : Access} {c : Condition} :
    checkAddr s a acc = .error c ↔ validAddr s.cfg a = none ∧ c = .invalidAddress a acc := by
  unfold checkAddr
  cases validAddr s.cfg a <;> simp [eq_comm]

theorem memRead_eq_ok {s : State} {a : Int} {acc : Access} {v : Word} :
    memRead s a acc = .ok v ↔ ∃ n, validAddr s.cfg a = some n ∧ s.mem.read n = v := by
  unfold memRead checkAddr
  cases validAddr s.cfg a <;> simp

theorem memRead_eq_error {s : State} {a : Int} {acc : Access} {c : Condition} :
    memRead s a acc = .error c ↔ validAddr s.cfg a = none ∧ c = .invalidAddress a acc := by
  unfold memRead checkAddr
  cases validAddr s.cfg a <;> simp [eq_comm]

theorem rangeCheck_eq_ok {s : State} {r : Int} {v : Word} :
    rangeCheck s r = .ok v ↔ inRange s.cfg r = true ∧ v = r := by
  unfold rangeCheck
  cases inRange s.cfg r <;> simp [eq_comm]

theorem rangeCheck_eq_error {s : State} {r : Int} {c : Condition} :
    rangeCheck s r = .error c ↔ inRange s.cfg r = false ∧ c = .valueOutOfRange r := by
  unfold rangeCheck
  cases inRange s.cfg r <;> simp [eq_comm]

theorem hookCheck_eq_ok {b : Bool} {c : Condition} {u : Unit} : hookCheck b c = .ok u ↔ b = true := by
  cases b <;> simp [hookCheck]

theorem hookCheck_eq_error {b : Bool} {c e : Condition} : hookCheck b c = .error e ↔ b = false ∧ e = c := by
  cases b <;> simp [hookCheck, eq_comm]

/-! ## Composition -/

/-- A composed computation answers exactly when both parts do. -/
theorem bind_eq_ok {α β : Type} {x : Except Condition α} {f : α → Except Condition β} {b : β} :
    (x >>= f) = .ok b ↔ ∃ a, x = .ok a ∧ f a = .ok b := by
  cases x with
  | error e => exact ⟨fun h => absurd h (by simp [bind, Except.bind]), fun ⟨_, h, _⟩ => absurd h (by simp)⟩
  | ok a => simp [bind, Except.bind]

/-- A composed computation raises what its first part raises, else what its second does. -/
theorem bind_eq_error {α β : Type} {x : Except Condition α} {f : α → Except Condition β} {c : Condition} :
    (x >>= f) = .error c ↔ x = .error c ∨ ∃ a, x = .ok a ∧ f a = .error c := by
  cases x with
  | error e => simp [bind, Except.bind]
  | ok a => simp [bind, Except.bind]

/-- The end of an instruction is always a next state: its effect, or the entry of the fault it raised. -/
theorem settle_eq_next {s t : State} {r : Except Condition State} :
    settle s r = .next t ↔ r = .ok t ∨ ∃ c, r = .error c ∧ t = raise c s := by
  unfold settle
  split <;> simp [eq_comm]

theorem settle_ok (s t : State) : settle s (.ok t) = .next t := rfl

theorem settle_error (s : State) (c : Condition) : settle s (.error c) = .next (raise c s) := rfl

theorem settle_answers (s : State) (r : Except Condition State) : ∃ t, settle s r = .next t := by
  cases r with
  | ok t => exact ⟨t, rfl⟩
  | error c => exact ⟨raise c s, rfl⟩

/-- At a valid `ip` the record holds the instruction word. -/
theorem raise_eq_faultedWith {s : State} (h : isAddr s.cfg s.ip = true) (c : Condition) :
    raise c s = faultedWith s c.cause c.detail := by
  simp [raise, faultedWith, faultRecord, rawWord, h, State.setSt]

end Sys2Proof.Machine
end

