-- ==== Sys2Proof/Laws/Operands.lean ====
section
/-! SUPPORT. What parameter fetch and operand resolution answer, in the terms of 40_engine.md R115 to R118. -/
namespace Sys2Proof.Machine

theorem paramWord_eq_ok {s : State} {k : Nat} {p : Word} : paramWord s k = .ok p ↔ ParamIs s k p := by
  unfold paramWord ParamIs
  rw [memRead_eq_ok]
  simp only [Int.ofNat_eq_natCast, validAddr_natCast]
  cases isAddr s.cfg (s.ip + k) <;> simp

theorem paramWord_eq_error {s : State} {k : Nat} {c : Condition} :
    paramWord s k = .error c ↔
      isAddr s.cfg (s.ip + k) = false ∧ c = .invalidAddress ((s.ip : Int) + k) (.param k) := by
  unfold paramWord
  rw [memRead_eq_error]
  simp only [Int.ofNat_eq_natCast, Nat.cast_add, validAddr_natCast_add]
  cases isAddr s.cfg (s.ip + k) <;> simp

/-- The raw parameter word is unique. -/
theorem ParamIs.unique {s : State} {k : Nat} {p q : Word} (hp : ParamIs s k p) (hq : ParamIs s k q) : p = q :=
  hp.2.symm.trans hq.2

/-- The fetch of parameter `k`, then its resolution as a value, answers `val(k)`. -/
theorem param_then_val {s : State} {k : Nat} {m : Mode} {v : Word} :
    (∃ p, paramWord s k = .ok p ∧ valOf s k m p = .ok v) ↔ ValueIs s k m v := by
  unfold ValueIs
  refine exists_congr fun p => and_congr paramWord_eq_ok ?_
  cases m <;> simp [valOf, effAddr, memRead_eq_ok]
  exact eq_comm

/-- The fetch of parameter `k`, then its resolution as a destination, answers `dst(k)`. -/
theorem param_then_dst {s : State} {k : Nat} {m : Mode} {d : Nat} :
    (∃ p, paramWord s k = .ok p ∧ dstOf s k m p = .ok d) ↔ DestIs s k m d := by
  unfold DestIs
  refine exists_congr fun p => ?_
  cases m <;> simp [dstOf, effAddr, checkAddr_eq_ok, paramWord_eq_ok]

theorem operandR_eq_ok {s : State} {m1 : Mode} {v : Word} : operandR s m1 = .ok v ↔ ValueIs s 1 m1 v := by
  unfold operandR
  rw [bind_eq_ok, param_then_val]

theorem operandW_eq_ok {s : State} {m1 : Mode} {d : Nat} : operandW s m1 = .ok d ↔ DestIs s 1 m1 d := by
  unfold operandW
  rw [bind_eq_ok, param_then_dst]

theorem operandsRR_eq_ok {s : State} {m1 m2 : Mode} {x : Word × Word} :
    operandsRR s m1 m2 = .ok x ↔ ValueIs s 1 m1 x.1 ∧ ValueIs s 2 m2 x.2 := by
  unfold operandsRR
  simp only [bind_eq_ok, ← param_then_val, pure, Except.pure, Except.ok.injEq]
  constructor
  · rintro ⟨p1, h1, p2, h2, a, ha, t, ht, rfl⟩
    exact ⟨⟨p1, h1, ha⟩, p2, h2, ht⟩
  · rintro ⟨⟨p1, h1, ha⟩, p2, h2, ht⟩
    exact ⟨p1, h1, p2, h2, _, ha, _, ht, rfl⟩

theorem operandsRRW_eq_ok {s : State} {m1 m2 m3 : Mode} {x : Word × Word × Nat} :
    operandsRRW s m1 m2 m3 = .ok x ↔ ValueIs s 1 m1 x.1 ∧ ValueIs s 2 m2 x.2.1 ∧ DestIs s 3 m3 x.2.2 := by
  unfold operandsRRW
  simp only [bind_eq_ok, ← param_then_val, ← param_then_dst, pure, Except.pure, Except.ok.injEq]
  constructor
  · rintro ⟨p1, h1, p2, h2, p3, h3, a, ha, b, hb, d, hd, rfl⟩
    exact ⟨⟨p1, h1, ha⟩, ⟨p2, h2, hb⟩, p3, h3, hd⟩
  · rintro ⟨⟨p1, h1, ha⟩, ⟨p2, h2, hb⟩, p3, h3, hd⟩
    exact ⟨p1, h1, p2, h2, p3, h3, _, ha, _, hb, _, hd, rfl⟩

/-- An operand that is bad raises `InvalidAddress` at its resolution, as a value or as a destination. -/
theorem valOf_bad {s : State} {k : Nat} {m : Mode} {p : Word} {ea : Int} (h1 : effAddr s m p = some ea)
    (h2 : validAddr s.cfg ea = none) : valOf s k m p = .error (.invalidAddress ea (.operand k)) := by
  cases m <;> simp [effAddr] at h1 <;> subst h1 <;> simp [valOf, memRead_eq_error, h2]

theorem dstOf_bad {s : State} {k : Nat} {m : Mode} {p : Word} {ea : Int} (h1 : effAddr s m p = some ea)
    (h2 : validAddr s.cfg ea = none) : dstOf s k m p = .error (.invalidAddress ea (.operand k)) := by
  cases m <;> simp [effAddr] at h1 <;> subst h1 <;> simp [dstOf, checkAddr_eq_error, h2]

/-- What resolution can raise: an invalid address, or Immediate mode on the write parameter of an ill-formed
instruction. -/
theorem valOf_eq_error {s : State} {k : Nat} {m : Mode} {p : Word} {c : Condition} (h : valOf s k m p = .error c) :
    ∃ a, validAddr s.cfg a = none ∧ c = .invalidAddress a (.operand k) := by
  cases m with
  | position => exact ⟨_, memRead_eq_error.1 h⟩
  | immediate => exact absurd h (by simp [valOf])
  | relative => exact ⟨_, memRead_eq_error.1 h⟩

theorem dstOf_eq_error {s : State} {k : Nat} {m : Mode} {p : Word} {c : Condition} (h : dstOf s k m p = .error c) :
    (∃ a, validAddr s.cfg a = none ∧ c = .invalidAddress a (.operand k)) ∨
      (m = .immediate ∧ c = .immediateWrite k) := by
  cases m with
  | position => exact .inl ⟨_, checkAddr_eq_error.1 h⟩
  | immediate => exact .inr ⟨rfl, by simpa [dstOf, eq_comm] using h⟩
  | relative => exact .inl ⟨_, checkAddr_eq_error.1 h⟩

/-- Values and destinations are unique. -/
theorem ValueIs.unique {s : State} {k : Nat} {m : Mode} {v w : Word} (hv : ValueIs s k m v) (hw : ValueIs s k m w) :
    v = w := by
  rw [← param_then_val] at hv hw
  obtain ⟨p, hp, hv⟩ := hv
  obtain ⟨q, hq, hw⟩ := hw
  rw [hp] at hq
  cases hq
  rw [hv] at hw
  exact Except.ok.inj hw

theorem DestIs.unique {s : State} {k : Nat} {m : Mode} {d e : Nat} (hd : DestIs s k m d) (he : DestIs s k m e) :
    d = e := by
  rw [← param_then_dst] at hd he
  obtain ⟨p, hp, hd⟩ := hd
  obtain ⟨q, hq, he⟩ := he
  rw [hp] at hq
  cases hq
  rw [hd] at he
  exact Except.ok.inj he

end Sys2Proof.Machine
end

