-- ==== Sys2Proof/Laws/Exec.lean ====
section
/-! SUPPORT. What an instruction can do, said once: `exec` answers its effect, or enters the fault it raised. -/
namespace Sys2Proof.Machine

/-! ## The shared effects -/

theorem storeResult_eq_ok {f : Int → Int → Int} {m1 m2 m3 : Mode} {s t : State} :
    storeResult f m1 m2 m3 s = .ok t ↔ ∃ a b d, ValueIs s 1 m1 a ∧ ValueIs s 2 m2 b ∧ DestIs s 3 m3 d ∧
      inRange s.cfg (f a b) = true ∧ t = (s.store d (f a b)).advance 4 := by
  unfold storeResult
  simp only [bind_eq_ok, operandsRRW_eq_ok, rangeCheck_eq_ok, Prod.exists, pure, Except.pure, Except.ok.injEq]
  constructor
  · rintro ⟨a, b, d, ⟨ha, hb, hd⟩, r, ⟨hr, rfl⟩, rfl⟩
    exact ⟨a, b, d, ha, hb, hd, hr, rfl⟩
  · rintro ⟨a, b, d, ha, hb, hd, hr, rfl⟩
    exact ⟨a, b, d, ⟨ha, hb, hd⟩, _, ⟨hr, rfl⟩, rfl⟩

theorem storeTruth_eq_ok {p : Word → Word → Bool} {m1 m2 m3 : Mode} {s t : State} :
    storeTruth p m1 m2 m3 s = .ok t ↔ ∃ a b d, ValueIs s 1 m1 a ∧ ValueIs s 2 m2 b ∧ DestIs s 3 m3 d ∧
      t = (s.store d (truthWord (p a b))).advance 4 := by
  unfold storeTruth
  simp only [bind_eq_ok, operandsRRW_eq_ok, Prod.exists, pure, Except.pure, Except.ok.injEq]
  constructor
  · rintro ⟨a, b, d, ⟨ha, hb, hd⟩, rfl⟩
    exact ⟨a, b, d, ha, hb, hd, rfl⟩
  · rintro ⟨a, b, d, ha, hb, hd, rfl⟩
    exact ⟨a, b, d, ⟨ha, hb, hd⟩, rfl⟩

theorem jumpWhen_eq_ok {taken : Word → Bool} {m1 m2 : Mode} {s t : State} :
    jumpWhen taken m1 m2 s = .ok t ↔ ∃ a v, ValueIs s 1 m1 a ∧ ValueIs s 2 m2 v ∧
      ((taken a = true ∧ ∃ n, validAddr s.cfg v = some n ∧ t = s.setIp n) ∨
        (taken a = false ∧ t = s.advance 3)) := by
  unfold jumpWhen
  simp only [bind_eq_ok, operandsRR_eq_ok, Prod.exists]
  refine exists_congr fun a => exists_congr fun v => ?_
  rw [and_assoc]
  refine and_congr_right fun _ => and_congr_right fun _ => ?_
  cases taken a
  · simp [pure, Except.pure, @eq_comm _ t]
  · simp [bind_eq_ok, checkAddr_eq_ok, pure, Except.pure, @eq_comm _ t]

/-! ## The effect of each instruction -/

/-- What an instruction that raises nothing makes of the state (41 to 46). -/
inductive Effect (s : State) : Instr → State → Prop where
  | add {m1 m2 m3 : Mode} {a b : Word} {d : Nat} : ValueIs s 1 m1 a → ValueIs s 2 m2 b → DestIs s 3 m3 d →
      inRange s.cfg (a + b) = true → Effect s (.add m1 m2 m3) ((s.store d (a + b)).advance 4)
  | mul {m1 m2 m3 : Mode} {a b : Word} {d : Nat} : ValueIs s 1 m1 a → ValueIs s 2 m2 b → DestIs s 3 m3 d →
      inRange s.cfg (a * b) = true → Effect s (.mul m1 m2 m3) ((s.store d (a * b)).advance 4)
  | inp {m1 m2 m3 : Mode} {d : Nat} : s.hasIn = true → DestIs s 1 m1 d →
      Effect s (.inp m1 m2 m3) (s.setSt (.awaitingInput d))
  | out {m1 m2 m3 : Mode} {v : Word} : s.hasOut = true → ValueIs s 1 m1 v →
      Effect s (.out m1 m2 m3) (s.setSt (.awaitingOutput v))
  | jtTaken {m1 m2 m3 : Mode} {a v : Word} {n : Nat} : ValueIs s 1 m1 a → ValueIs s 2 m2 v → a ≠ 0 →
      validAddr s.cfg v = some n → Effect s (.jt m1 m2 m3) (s.setIp n)
  | jtPassed {m1 m2 m3 : Mode} {a v : Word} : ValueIs s 1 m1 a → ValueIs s 2 m2 v → a = 0 →
      Effect s (.jt m1 m2 m3) (s.advance 3)
  | jfTaken {m1 m2 m3 : Mode} {a v : Word} {n : Nat} : ValueIs s 1 m1 a → ValueIs s 2 m2 v → a = 0 →
      validAddr s.cfg v = some n → Effect s (.jf m1 m2 m3) (s.setIp n)
  | jfPassed {m1 m2 m3 : Mode} {a v : Word} : ValueIs s 1 m1 a → ValueIs s 2 m2 v → a ≠ 0 →
      Effect s (.jf m1 m2 m3) (s.advance 3)
  | lt {m1 m2 m3 : Mode} {a b : Word} {d : Nat} : ValueIs s 1 m1 a → ValueIs s 2 m2 b → DestIs s 3 m3 d →
      Effect s (.lt m1 m2 m3) ((s.store d (if a < b then 1 else 0)).advance 4)
  | eq {m1 m2 m3 : Mode} {a b : Word} {d : Nat} : ValueIs s 1 m1 a → ValueIs s 2 m2 b → DestIs s 3 m3 d →
      Effect s (.eq m1 m2 m3) ((s.store d (if a = b then 1 else 0)).advance 4)
  | arb {m1 m2 m3 : Mode} {a : Word} : ValueIs s 1 m1 a → inRange s.cfg (s.rb + a) = true →
      Effect s (.arb m1 m2 m3) ((s.setRb (s.rb + a)).advance 2)
  | hlt {m1 m2 m3 : Mode} : Effect s (.hlt m1 m2 m3) (s.setSt .halted)

/-- A condition an instruction can raise, with a detail that is true of the state (60_exceptions.md R220). -/
inductive Raised (s : State) : Condition → Prop where
  | missingInputHook : s.hasIn = false → Raised s .missingInputHook
  | missingOutputHook : s.hasOut = false → Raised s .missingOutputHook
  | invalidAddress (a : Int) (acc : Access) : validAddr s.cfg a = none → Raised s (.invalidAddress a acc)
  | immediateWrite (k : Nat) : k = 1 ∨ k = 3 → Raised s (.immediateWrite k)
  | valueOutOfRange (r : Int) : inRange s.cfg r = false → Raised s (.valueOutOfRange r)

theorem paramWord_raised {s : State} {k : Nat} {c : Condition} (h : paramWord s k = .error c) : Raised s c := by
  obtain ⟨h1, rfl⟩ := paramWord_eq_error.1 h
  exact .invalidAddress _ _ (by simp [h1])

theorem valOf_raised {s : State} {k : Nat} {m : Mode} {p : Word} {c : Condition} (h : valOf s k m p = .error c) :
    Raised s c := by
  obtain ⟨a, ha, rfl⟩ := valOf_eq_error h
  exact .invalidAddress _ _ ha

theorem dstOf_raised {s : State} {k : Nat} {m : Mode} {p : Word} {c : Condition} (hk : k = 1 ∨ k = 3)
    (h : dstOf s k m p = .error c) : Raised s c := by
  rcases dstOf_eq_error h with ⟨a, ha, rfl⟩ | ⟨-, rfl⟩
  · exact .invalidAddress _ _ ha
  · exact .immediateWrite _ hk

theorem operandR_raised {s : State} {m1 : Mode} {c : Condition} (h : operandR s m1 = .error c) : Raised s c := by
  unfold operandR at h
  rcases bind_eq_error.1 h with h | ⟨_, -, h⟩
  · exact paramWord_raised h
  · exact valOf_raised h

theorem operandW_raised {s : State} {m1 : Mode} {c : Condition} (h : operandW s m1 = .error c) : Raised s c := by
  unfold operandW at h
  rcases bind_eq_error.1 h with h | ⟨_, -, h⟩
  · exact paramWord_raised h
  · exact dstOf_raised (.inl rfl) h

theorem operandsRR_raised {s : State} {m1 m2 : Mode} {c : Condition} (h : operandsRR s m1 m2 = .error c) :
    Raised s c := by
  unfold operandsRR at h
  rcases bind_eq_error.1 h with h | ⟨_, -, h⟩
  · exact paramWord_raised h
  rcases bind_eq_error.1 h with h | ⟨_, -, h⟩
  · exact paramWord_raised h
  rcases bind_eq_error.1 h with h | ⟨_, -, h⟩
  · exact valOf_raised h
  rcases bind_eq_error.1 h with h | ⟨_, -, h⟩
  · exact valOf_raised h
  · exact absurd h (by simp [pure, Except.pure])

theorem operandsRRW_raised {s : State} {m1 m2 m3 : Mode} {c : Condition}
    (h : operandsRRW s m1 m2 m3 = .error c) : Raised s c := by
  unfold operandsRRW at h
  rcases bind_eq_error.1 h with h | ⟨_, -, h⟩
  · exact paramWord_raised h
  rcases bind_eq_error.1 h with h | ⟨_, -, h⟩
  · exact paramWord_raised h
  rcases bind_eq_error.1 h with h | ⟨_, -, h⟩
  · exact paramWord_raised h
  rcases bind_eq_error.1 h with h | ⟨_, -, h⟩
  · exact valOf_raised h
  rcases bind_eq_error.1 h with h | ⟨_, -, h⟩
  · exact valOf_raised h
  rcases bind_eq_error.1 h with h | ⟨_, -, h⟩
  · exact dstOf_raised (.inr rfl) h
  · exact absurd h (by simp [pure, Except.pure])

theorem rangeCheck_raised {s : State} {r : Int} {c : Condition} (h : rangeCheck s r = .error c) : Raised s c := by
  obtain ⟨h1, rfl⟩ := rangeCheck_eq_error.1 h
  exact .valueOutOfRange _ h1

theorem storeResult_raised {f : Int → Int → Int} {m1 m2 m3 : Mode} {s : State} {c : Condition}
    (h : storeResult f m1 m2 m3 s = .error c) : Raised s c := by
  unfold storeResult at h
  rcases bind_eq_error.1 h with h | ⟨_, -, h⟩
  · exact operandsRRW_raised h
  rcases bind_eq_error.1 h with h | ⟨_, -, h⟩
  · exact rangeCheck_raised h
  · exact absurd h (by simp [pure, Except.pure])

theorem storeTruth_raised {p : Word → Word → Bool} {m1 m2 m3 : Mode} {s : State} {c : Condition}
    (h : storeTruth p m1 m2 m3 s = .error c) : Raised s c := by
  unfold storeTruth at h
  rcases bind_eq_error.1 h with h | ⟨_, -, h⟩
  · exact operandsRRW_raised h
  · exact absurd h (by simp [pure, Except.pure])

theorem jumpWhen_raised {taken : Word → Bool} {m1 m2 : Mode} {s : State} {c : Condition}
    (h : jumpWhen taken m1 m2 s = .error c) : Raised s c := by
  unfold jumpWhen at h
  rcases bind_eq_error.1 h with h | ⟨x, -, h⟩
  · exact operandsRR_raised h
  · obtain ⟨a, v⟩ := x
    cases ht : taken a
    · exact absurd h (by simp [ht, pure, Except.pure])
    · simp only [ht] at h
      rcases bind_eq_error.1 h with h | ⟨_, -, h⟩
      · obtain ⟨h1, rfl⟩ := checkAddr_eq_error.1 h
        exact .invalidAddress _ _ h1
      · exact absurd h (by simp [pure, Except.pure])

/-! ## exec -/

/-- What `exec` can do. -/
theorem exec_cases {i : Instr} {s t : State} (h : exec i s = .next t) :
    Effect s i t ∨ ∃ c, Raised s c ∧ t = raise c s := by
  cases i with
  | add m1 m2 m3 =>
    rcases settle_eq_next.1 h with h | ⟨c, hc, rfl⟩
    · obtain ⟨a, b, d, ha, hb, hd, hr, rfl⟩ := storeResult_eq_ok.1 h
      exact .inl (.add ha hb hd hr)
    · exact .inr ⟨c, storeResult_raised hc, rfl⟩
  | mul m1 m2 m3 =>
    rcases settle_eq_next.1 h with h | ⟨c, hc, rfl⟩
    · obtain ⟨a, b, d, ha, hb, hd, hr, rfl⟩ := storeResult_eq_ok.1 h
      exact .inl (.mul ha hb hd hr)
    · exact .inr ⟨c, storeResult_raised hc, rfl⟩
  | inp m1 m2 m3 =>
    rcases settle_eq_next.1 h with h | ⟨c, hc, rfl⟩
    · simp only [bind_eq_ok, operandW_eq_ok, pure, Except.pure, Except.ok.injEq] at h
      obtain ⟨u, hu, d, hd, rfl⟩ := h
      exact .inl (.inp (hookCheck_eq_ok.1 hu) hd)
    · refine .inr ⟨c, ?_, rfl⟩
      rcases bind_eq_error.1 hc with hc | ⟨_, -, hc⟩
      · obtain ⟨h1, rfl⟩ := hookCheck_eq_error.1 hc
        exact .missingInputHook h1
      rcases bind_eq_error.1 hc with hc | ⟨_, -, hc⟩
      · exact operandW_raised hc
      · exact absurd hc (by simp [pure, Except.pure])
  | out m1 m2 m3 =>
    rcases settle_eq_next.1 h with h | ⟨c, hc, rfl⟩
    · simp only [bind_eq_ok, operandR_eq_ok, pure, Except.pure, Except.ok.injEq] at h
      obtain ⟨u, hu, d, hd, rfl⟩ := h
      exact .inl (.out (hookCheck_eq_ok.1 hu) hd)
    · refine .inr ⟨c, ?_, rfl⟩
      rcases bind_eq_error.1 hc with hc | ⟨_, -, hc⟩
      · obtain ⟨h1, rfl⟩ := hookCheck_eq_error.1 hc
        exact .missingOutputHook h1
      rcases bind_eq_error.1 hc with hc | ⟨_, -, hc⟩
      · exact operandR_raised hc
      · exact absurd hc (by simp [pure, Except.pure])
  | jt m1 m2 m3 =>
    rcases settle_eq_next.1 h with h | ⟨c, hc, rfl⟩
    · obtain ⟨a, v, ha, hv, ⟨hz, n, hn, rfl⟩ | ⟨hz, rfl⟩⟩ := jumpWhen_eq_ok.1 h
      · exact .inl (.jtTaken ha hv (by simpa [jumpTest] using hz) hn)
      · exact .inl (.jtPassed ha hv (by simpa [jumpTest] using hz))
    · exact .inr ⟨c, jumpWhen_raised hc, rfl⟩
  | jf m1 m2 m3 =>
    rcases settle_eq_next.1 h with h | ⟨c, hc, rfl⟩
    · obtain ⟨a, v, ha, hv, ⟨hz, n, hn, rfl⟩ | ⟨hz, rfl⟩⟩ := jumpWhen_eq_ok.1 h
      · exact .inl (.jfTaken ha hv (by simpa [jumpTest] using hz) hn)
      · exact .inl (.jfPassed ha hv (by simpa [jumpTest] using hz))
    · exact .inr ⟨c, jumpWhen_raised hc, rfl⟩
  | lt m1 m2 m3 =>
    rcases settle_eq_next.1 h with h | ⟨c, hc, rfl⟩
    · obtain ⟨a, b, d, ha, hb, hd, rfl⟩ := storeTruth_eq_ok.1 h
      simp only [truthWord, decide_eq_true_eq]
      exact .inl (.lt ha hb hd)
    · exact .inr ⟨c, storeTruth_raised hc, rfl⟩
  | eq m1 m2 m3 =>
    rcases settle_eq_next.1 h with h | ⟨c, hc, rfl⟩
    · obtain ⟨a, b, d, ha, hb, hd, rfl⟩ := storeTruth_eq_ok.1 h
      simp only [truthWord, decide_eq_true_eq]
      exact .inl (.eq ha hb hd)
    · exact .inr ⟨c, storeTruth_raised hc, rfl⟩
  | arb m1 m2 m3 =>
    rcases settle_eq_next.1 h with h | ⟨c, hc, rfl⟩
    · simp only [bind_eq_ok, operandR_eq_ok, rangeCheck_eq_ok, pure, Except.pure, Except.ok.injEq] at h
      obtain ⟨a, ha, r, ⟨hr, rfl⟩, rfl⟩ := h
      exact .inl (.arb ha hr)
    · refine .inr ⟨c, ?_, rfl⟩
      rcases bind_eq_error.1 hc with hc | ⟨_, -, hc⟩
      · exact operandR_raised hc
      rcases bind_eq_error.1 hc with hc | ⟨_, -, hc⟩
      · exact rangeCheck_raised hc
      · exact absurd hc (by simp [pure, Except.pure])
  | hlt m1 m2 m3 =>
    cases h
    exact .inl .hlt

end Sys2Proof.Machine
end

