-- ==== Sys2Proof/Laws/Memory.lean ====
section
/-! SUPPORT. What the memory operations do to the list of cells: every one keeps the canonical form. -/
namespace Sys2Proof.Machine

@[simp] theorem Memory.read_nil (a : Nat) : Memory.read [] a = 0 := rfl

@[simp] theorem Memory.read_cons (b : Nat) (u : Word) (m : Memory) (a : Nat) :
    Memory.read ((b, u) :: m) a = if a = b then u else Memory.read m a := rfl

/-- Reading an address no cell lists gives 0. -/
theorem Memory.read_eq_zero {m : Memory} {a : Nat} (h : ∀ c ∈ m, c.1 ≠ a) : m.read a = 0 := by
  induction m with
  | nil => rfl
  | cons c m ih =>
    obtain ⟨b, u⟩ := c
    have hb : a ≠ b := fun e => h (b, u) (by simp) e.symm
    simp [hb, ih fun c hc => h c (by simp [hc])]

/-- A read is 0 or the word of a listed cell. -/
theorem Memory.read_mem_or_zero (m : Memory) (a : Nat) : m.read a = 0 ∨ (a, m.read a) ∈ m := by
  induction m with
  | nil => exact .inl rfl
  | cons c m ih =>
    obtain ⟨b, u⟩ := c
    by_cases hb : a = b
    · subst hb; simp
    · rcases ih with h | h
      · simp [hb, h]
      · simp [hb, h]

/-- The cells after `put` are the new one and old ones. -/
theorem Memory.mem_put {m : Memory} {a : Nat} {v : Word} {c : Cell} (h : c ∈ m.put a v) : c = (a, v) ∨ c ∈ m := by
  induction m with
  | nil => simpa [Memory.put] using h
  | cons e m ih =>
    obtain ⟨b, u⟩ := e
    unfold Memory.put at h
    split at h
    · simpa using h
    · split at h
      · rcases List.mem_cons.1 h with rfl | h
        · exact .inl rfl
        · exact .inr (List.mem_cons_of_mem _ h)
      · rcases List.mem_cons.1 h with rfl | h
        · exact .inr (by simp)
        · exact (ih h).imp id (List.mem_cons_of_mem _)

/-- The cells after a write are the new one, if it is not 0, and old ones. -/
theorem Memory.mem_write {m : Memory} {a : Nat} {v : Word} {c : Cell} (h : c ∈ m.write a v) :
    (v ≠ 0 ∧ c = (a, v)) ∨ c ∈ m := by
  unfold Memory.write at h
  split at h
  · exact .inr (List.mem_filter.1 h).1
  · exact (Memory.mem_put h).imp (fun e => ⟨by assumption, e⟩) id

theorem Memory.wf_nil : Memory.wf [] := ⟨List.Pairwise.nil, by simp⟩

theorem Memory.pairwise_put {m : Memory} {a : Nat} {v : Word} (h : m.Pairwise (fun c d => c.1 < d.1)) :
    (m.put a v).Pairwise (fun c d => c.1 < d.1) := by
  induction m with
  | nil => simp [Memory.put]
  | cons e m ih =>
    obtain ⟨b, u⟩ := e
    obtain ⟨hb, hm⟩ := List.pairwise_cons.1 h
    unfold Memory.put
    split
    · rename_i hab
      refine List.pairwise_cons.2 ⟨fun c hc => ?_, h⟩
      rcases List.mem_cons.1 hc with rfl | hc
      · exact hab
      · exact Nat.lt_trans hab (hb c hc)
    · split
      · rename_i hab
        subst hab
        exact List.pairwise_cons.2 ⟨hb, hm⟩
      · refine List.pairwise_cons.2 ⟨fun c hc => ?_, ih hm⟩
        rcases Memory.mem_put hc with rfl | hc
        · change b < a; omega
        · exact hb c hc

/-- A write keeps the canonical form. -/
theorem Memory.wf_write {m : Memory} (a : Nat) (v : Word) (h : m.wf) : (m.write a v).wf := by
  refine ⟨?_, fun c hc => ?_⟩
  · unfold Memory.write
    split
    · exact h.1.filter _
    · exact Memory.pairwise_put h.1
  · rcases Memory.mem_write hc with ⟨hv, rfl⟩ | hc
    · exact hv
    · exact h.2 c hc

/-- The cells of an image lie at `a` or above, and hold the image's words that are not 0. -/
theorem mem_imageFrom {image : List Word} {a : Nat} {c : Cell} (h : c ∈ imageFrom a image) :
    a ≤ c.1 ∧ c.1 < a + image.length ∧ c.2 ≠ 0 ∧ c.2 ∈ image := by
  induction image generalizing a with
  | nil => simp [imageFrom] at h
  | cons v vs ih =>
    unfold imageFrom at h
    split at h
    · obtain ⟨h1, h2, h3, h4⟩ := ih h
      exact ⟨by omega, by simp; omega, h3, List.mem_cons_of_mem _ h4⟩
    · rcases List.mem_cons.1 h with rfl | h
      · exact ⟨le_refl _, by simp, by assumption, by simp⟩
      · obtain ⟨h1, h2, h3, h4⟩ := ih h
        exact ⟨by omega, by simp; omega, h3, List.mem_cons_of_mem _ h4⟩

theorem pairwise_imageFrom (image : List Word) (a : Nat) :
    (imageFrom a image).Pairwise (fun c d => c.1 < d.1) := by
  induction image generalizing a with
  | nil => exact List.Pairwise.nil
  | cons v vs ih =>
    unfold imageFrom
    split
    · exact ih _
    · exact List.pairwise_cons.2 ⟨fun c hc => (mem_imageFrom hc).1, ih _⟩

/-- The memory of an image is in canonical form. -/
theorem Memory.wf_ofImage (image : List Word) : (Memory.ofImage image).wf :=
  ⟨pairwise_imageFrom image 0, fun _ hc => (mem_imageFrom hc).2.2.1⟩

/-- `State.reset`'s memory is in canonical form. -/
theorem State.reset_mem_wf : State.reset.mem.wf := Memory.wf_nil

end Sys2Proof.Machine
end

