-- ==== Sys2Proof/Laws/PerInstr.lean ====
section
/-! SUPPORT. A law of every instruction as syntax: what its instruction word shows (30_encoding.md R81, R83). -/

/-- The instruction word has five digits at most, its low two are the opcode, and the opcode map gives the
instruction back from the opcode and its three modes (R81, R83, R101). -/
def Sys2Proof.Laws.WordDigits.Statement (i : Sys2Proof.Instr) : Prop :=
  0 ≤ Sys2Proof.encode i ∧ Sys2Proof.encode i < 100000 ∧
    Sys2Proof.encode i % 100 = Int.ofNat i.opcode ∧
    Sys2Proof.instrOfOpcode i.opcode i.modes.1 i.modes.2.1 i.modes.2.2 = some i

theorem Sys2Proof.Laws.WordDigits.add (m1 m2 m3 : Sys2Proof.Mode) :
    Sys2Proof.Laws.WordDigits.Statement (.add m1 m2 m3) := by
  cases m1 <;> cases m2 <;> cases m3 <;> exact ⟨by decide, by decide, by decide, rfl⟩

theorem Sys2Proof.Laws.WordDigits.mul (m1 m2 m3 : Sys2Proof.Mode) :
    Sys2Proof.Laws.WordDigits.Statement (.mul m1 m2 m3) := by
  cases m1 <;> cases m2 <;> cases m3 <;> exact ⟨by decide, by decide, by decide, rfl⟩

theorem Sys2Proof.Laws.WordDigits.inp (m1 m2 m3 : Sys2Proof.Mode) :
    Sys2Proof.Laws.WordDigits.Statement (.inp m1 m2 m3) := by
  cases m1 <;> cases m2 <;> cases m3 <;> exact ⟨by decide, by decide, by decide, rfl⟩

theorem Sys2Proof.Laws.WordDigits.out (m1 m2 m3 : Sys2Proof.Mode) :
    Sys2Proof.Laws.WordDigits.Statement (.out m1 m2 m3) := by
  cases m1 <;> cases m2 <;> cases m3 <;> exact ⟨by decide, by decide, by decide, rfl⟩

theorem Sys2Proof.Laws.WordDigits.jt (m1 m2 m3 : Sys2Proof.Mode) :
    Sys2Proof.Laws.WordDigits.Statement (.jt m1 m2 m3) := by
  cases m1 <;> cases m2 <;> cases m3 <;> exact ⟨by decide, by decide, by decide, rfl⟩

theorem Sys2Proof.Laws.WordDigits.jf (m1 m2 m3 : Sys2Proof.Mode) :
    Sys2Proof.Laws.WordDigits.Statement (.jf m1 m2 m3) := by
  cases m1 <;> cases m2 <;> cases m3 <;> exact ⟨by decide, by decide, by decide, rfl⟩

theorem Sys2Proof.Laws.WordDigits.lt (m1 m2 m3 : Sys2Proof.Mode) :
    Sys2Proof.Laws.WordDigits.Statement (.lt m1 m2 m3) := by
  cases m1 <;> cases m2 <;> cases m3 <;> exact ⟨by decide, by decide, by decide, rfl⟩

theorem Sys2Proof.Laws.WordDigits.eq (m1 m2 m3 : Sys2Proof.Mode) :
    Sys2Proof.Laws.WordDigits.Statement (.eq m1 m2 m3) := by
  cases m1 <;> cases m2 <;> cases m3 <;> exact ⟨by decide, by decide, by decide, rfl⟩

theorem Sys2Proof.Laws.WordDigits.arb (m1 m2 m3 : Sys2Proof.Mode) :
    Sys2Proof.Laws.WordDigits.Statement (.arb m1 m2 m3) := by
  cases m1 <;> cases m2 <;> cases m3 <;> exact ⟨by decide, by decide, by decide, rfl⟩

theorem Sys2Proof.Laws.WordDigits.hlt (m1 m2 m3 : Sys2Proof.Mode) :
    Sys2Proof.Laws.WordDigits.Statement (.hlt m1 m2 m3) := by
  cases m1 <;> cases m2 <;> cases m3 <;> exact ⟨by decide, by decide, by decide, rfl⟩
end

