-- ==== Sys2Proof/Laws/Step.lean ====
section
/-! SUPPORT. What a step can do, said once: by whose turn it is, and for the engine's turn by its outcome. -/
namespace Sys2Proof.Machine

/-! ## Decode faults -/

/-- The faults of the decoder carry a true detail. -/
theorem decode_fault_detail {w : Word} {e : DecodeFault} (h : decode w = .error e) :
    e = .unknownOpcode ∨ e = .excessDigits ∨
      (∃ k d, e = .reservedMode k d ∧ 1 ≤ k ∧ k ≤ 3 ∧ 3 ≤ d ∧ d ≤ 9) ∨
      (∃ k, e = .immediateWrite k ∧ (k = 1 ∨ k = 3)) := by
  cases w with
  | negSucc n => exact .inl (by simpa [decode, eq_comm] using h)
  | ofNat n =>
    have hd : ∀ i, modeOfDigit (digit n i) = none → 3 ≤ digit n i ∧ digit n i ≤ 9 := by
      intro i hi
      have hlt : digit n i < 10 := Nat.mod_lt _ (by decide)
      generalize digit n i = x at hi hlt
      refine ⟨?_, by omega⟩
      by_contra hx
      have : x = 0 ∨ x = 1 ∨ x = 2 := by omega
      rcases this with rfl | rfl | rfl <;> exact absurd hi (by simp [modeOfDigit])
    simp only [decode, decodeNat] at h
    split at h
    · split at h
      · split at h
        · rename_i e' hm
          cases h
          unfold modesOf at hm
          split at hm
          · rename_i h1
            cases hm
            exact .inr (.inr (.inl ⟨1, _, rfl, by omega, by omega, hd _ h1⟩))
          · rename_i h1
            cases hm
            exact .inr (.inr (.inl ⟨2, _, rfl, by omega, by omega, hd _ h1⟩))
          · rename_i h1
            cases hm
            exact .inr (.inr (.inl ⟨3, _, rfl, by omega, by omega, hd _ h1⟩))
          · exact absurd hm (by simp)
        · split at h
          · rename_i i hi
            unfold checkWriteMode at h
            split at h
            · rename_i k hk
              cases h
              refine .inr (.inr (.inr ⟨k, rfl, ?_⟩))
              cases i <;> simp [Instr.writeMode] at hk <;> omega
            all_goals exact absurd h (by simp)
          · exact .inl (by simpa [eq_comm] using h)
      · exact .inr (.inl (by simpa [eq_comm] using h))
    · exact .inl (by simpa [eq_comm] using h)

/-! ## The engine's turn -/

/-- What fetch and decode answer at `ip`. -/
theorem fetchDecode_eq_ok {s : State} {i : Instr} :
    fetchDecode s = .ok i ↔ isAddr s.cfg s.ip = true ∧ decode (s.mem.read s.ip) = .ok i := by
  unfold fetchDecode memRead checkAddr
  simp only [Int.ofNat_eq_natCast, validAddr_natCast]
  cases isAddr s.cfg s.ip
  · simp
  · simp only [if_true, true_and]
    split <;> simp_all

theorem fetchDecode_eq_error {s : State} {c : Condition} :
    fetchDecode s = .error c ↔
      (isAddr s.cfg s.ip = false ∧ c = .invalidAddress s.ip .fetch) ∨
        (isAddr s.cfg s.ip = true ∧ ∃ e, decode (s.mem.read s.ip) = .error e ∧ c = conditionOf e) := by
  unfold fetchDecode memRead checkAddr
  simp only [Int.ofNat_eq_natCast, validAddr_natCast]
  cases isAddr s.cfg s.ip
  · simp [eq_comm]
  · simp only [if_true]
    cases decode (s.mem.read s.ip) <;> simp [eq_comm]

/-- The engine's turn, by its outcome (40_engine.md R124). -/
inductive EngineTurn (s : State) : State → Prop where
  | idle : s.st ≠ .running → EngineTurn s s
  | cancelled : s.st = .running → s.cancel = true → EngineTurn s (s.setSt .cancelled)
  | fetchFault {c : Condition} : s.st = .running → s.cancel = false → fetchDecode s = .error c →
      EngineTurn s (raise c s)
  | effect {i : Instr} {t : State} : s.st = .running → s.cancel = false → fetchDecode s = .ok i → Effect s i t →
      EngineTurn s t
  | raised {i : Instr} {c : Condition} : s.st = .running → s.cancel = false → fetchDecode s = .ok i → Raised s c →
      EngineTurn s (raise c s)

theorem engineTurn_cases {s t : State} (h : engineTurn s = .next t) : EngineTurn s t := by
  unfold engineTurn at h
  split at h
  case h_1 hst =>
    unfold boundaryStep at h
    cases hc : s.cancel with
    | true =>
      rw [hc] at h
      cases h
      exact .cancelled hst hc
    | false =>
      rw [hc] at h
      simp only at h
      split at h
      · rename_i i hi
        rcases exec_cases h with h | ⟨c, hr, rfl⟩
        · exact .effect hst hc hi h
        · exact .raised hst hc hi hr
      · rename_i c hf
        cases h
        exact .fetchFault hst hc hf
  all_goals
    cases h
    exact .idle (by simp [*])

/-! ## The step -/

@[simp] theorem turnUsed_eq_setHost {s : State} {e : HostEvent} {es : List HostEvent} (h : s.host = e :: es) :
    s.setHost es = s.turnUsed := by
  simp [State.setHost, State.turnUsed, h]

/-- What a step can do: the engine's turn, or one of the host's events inside its duties (R124). -/
inductive StepCase (s : State) : State → Prop where
  | engine {t : State} : s.enginesTurn = true → EngineTurn s.turnUsed t → StepCase s t
  | input {d : Nat} {v : Word} {es : List HostEvent} : s.host = .inputValue v :: es → s.st = .awaitingInput d →
      inRange s.cfg v = true → StepCase s (completeInp d v s.turnUsed)
  | accept {v : Word} {es : List HostEvent} : s.host = .outputAccept :: es → s.st = .awaitingOutput v →
      StepCase s (completeOut v s.turnUsed)
  | cancel {es : List HostEvent} : s.host = .cancel :: es → StepCase s s.turnUsed.setCancel
  | reset {image : List Word} {hi ho : Bool} {es : List HostEvent} : s.host = .reset image hi ho :: es →
      legalImage s.cfg image = true → StepCase s (resetTo s.cfg image hi ho es)

theorem step_cases {s t : State} (h : step s = .next t) : StepCase s t := by
  unfold step transition at h
  split at h
  · rename_i hh
    have hu : s.turnUsed = s := by
      cases s; simp_all [State.turnUsed]
    refine .engine (by simp [State.enginesTurn, hh]) ?_
    rw [hu]
    exact engineTurn_cases h
  · rename_i e es hh
    rw [turnUsed_eq_setHost hh] at h
    cases e with
    | engineTurn => exact .engine (by simp [State.enginesTurn, hh]) (engineTurn_cases h)
    | inputValue v =>
      simp only [hostTurn, inputValue] at h
      split at h
      · split at h
        · cases h
          exact .input hh (by assumption) (by assumption)
        · exact absurd h (by simp)
      all_goals exact absurd h (by simp)
    | outputAccept =>
      simp only [hostTurn, outputAccept] at h
      split at h
      · cases h
        exact .accept hh (by assumption)
      all_goals exact absurd h (by simp)
    | cancel =>
      cases h
      exact .cancel hh
    | reset image hi ho =>
      simp only [hostTurn, resetEvent] at h
      split at h
      · cases h
        have : s.turnUsed.host = es := by simp [hh]
        rw [this]
        exact .reset hh (by assumption)
      · exact absurd h (by simp)

/-- On the engine's turn the step is the engine's. -/
theorem step_of_enginesTurn {s : State} (h : s.enginesTurn = true) : step s = engineTurn s.turnUsed := by
  unfold step transition
  split
  · rename_i hh
    congr 1
    cases s; simp_all [State.turnUsed]
  · rename_i e es hh
    rw [turnUsed_eq_setHost hh]
    cases e <;> simp_all [State.enginesTurn, hostTurn]

/-! ## Runs -/

theorem run_succ_of_next {M : Host.Core} {n : Nat} {s t : M.State} (h : M.step s = .next t) :
    M.run (n + 1) s = M.run n t := by
  rw [Host.Core.run, h]

theorem run_one {M : Host.Core} (s : M.State) : M.run 1 s = M.step s := by
  rw [Host.Core.run]
  cases M.step s <;> rfl

/-- The first step of a run of this machine. -/
theorem core_run_succ {n : Nat} {s t : State} (h : step s = .next t) :
    Host.Core.run core (n + 1) s = Host.Core.run core n t := run_succ_of_next (M := core) h

/-- A run of one step is the step. -/
theorem core_run_one (s : State) : Host.Core.run core 1 s = step s := run_one (M := core) s

end Sys2Proof.Machine
end

