-- ==== Sys2Proof/Tests/Slice0.lean ====
section
/-! SUPPORT. Small tests, each against spec/ (95_test_vectors.md unless another place is named), and a witness for
every statement that has hypotheses. -/
namespace Sys2Proof.Tests
open Sys2Proof Sys2Proof.Machine

/-- The instance reset from an image with both hooks present, `W = 64`, `AMAX = infinity`: the vectors' setting. -/
def mk (image : List Word) : State := resetTo Config.standard image true true []

/-- The state an outcome answers. -/
def got (o : Host.Outcome State Fault Refusal) : Option State :=
  match o with
  | .next t => some t
  | .fault _ => none
  | .refused _ => none

/-- The reason an outcome is refused. -/
def why (o : Host.Outcome State Fault Refusal) : Option Refusal :=
  match o with
  | .next _ => none
  | .fault _ => none
  | .refused r => some r

/-- One step, then a look at the state. -/
def see {α : Type} (s : State) (f : State → α) : Option α := (got (step s)).map f

/-! ## Well-formedness: an ill-formed term for each check (30_encoding.md R90) -/

theorem test_wf_refuses_add : (Instr.add .position .position .immediate).wf = false := by decide
theorem test_wf_refuses_mul : (Instr.mul .position .position .immediate).wf = false := by decide
theorem test_wf_refuses_inp : (Instr.inp .immediate .position .position).wf = false := by decide
theorem test_wf_refuses_lt : (Instr.lt .position .position .immediate).wf = false := by decide
theorem test_wf_refuses_eq : (Instr.eq .position .position .immediate).wf = false := by decide
theorem test_wf_takes_unused_immediate : (Instr.hlt .immediate .immediate .immediate).wf = true := by decide

/-! ## Decoding words written out from R81, R83: `m3 m2 m1 op op` -/

theorem test_decode_add : decode 21201 = .ok (.add .relative .immediate .relative) := by rfl
theorem test_decode_mul : decode 1002 = .ok (.mul .position .immediate .position) := by rfl
theorem test_decode_inp : decode 203 = .ok (.inp .relative .position .position) := by rfl
theorem test_decode_out : decode 1104 = .ok (.out .immediate .immediate .position) := by rfl
theorem test_decode_jt : decode 1105 = .ok (.jt .immediate .immediate .position) := by rfl
theorem test_decode_jf : decode 6 = .ok (.jf .position .position .position) := by rfl
theorem test_decode_lt : decode 1107 = .ok (.lt .immediate .immediate .position) := by rfl
theorem test_decode_eq : decode 22208 = .ok (.eq .relative .relative .relative) := by rfl
theorem test_decode_arb : decode 209 = .ok (.arb .relative .position .position) := by rfl
theorem test_decode_hlt : decode 22299 = .ok (.hlt .relative .relative .relative) := by rfl
theorem test_decode_zero : decode 0 = .error .unknownOpcode := by rfl
theorem test_decode_negative : decode (-101) = .error .unknownOpcode := by rfl
/-- The opcode check comes before the excess check. -/
theorem test_decode_100000 : decode 100000 = .error .unknownOpcode := by rfl
theorem test_decode_excess : decode 190001 = .error .excessDigits := by rfl
theorem test_decode_reserved : decode 91101 = .error (.reservedMode 3 9) := by rfl
theorem test_decode_reserved_unused : decode 399 = .error (.reservedMode 1 3) := by rfl
theorem test_decode_write_immediate : decode 103 = .error (.immediateWrite 1) := by rfl

/-- R101: `ADD [100], #1, [100]` is `1001,100,1,100`. -/
theorem test_assemble : assemble (.add .position .immediate .position) [100, 1, 100] = some [1001, 100, 1, 100] := by
  rfl

/-! ## One step of each instruction -/

theorem test_add_doubles : see (mk [1, 0, 0, 0, 99]) (fun t => (t.mem.read 0, t.ip)) = some (2, 4) := by decide
theorem test_add_top_faults :
    see (mk [1101, 9223372036854775807, 1, 0, 99]) (fun t => (t.fr, t.mem.read 0, t.ip)) =
      some (some ⟨.valueOutOfRange, 0, some 1101, .result 9223372036854775808⟩, 1101, 0) := by decide
theorem test_mul_bottom :
    see (mk [1102, -4294967296, 2147483648, 0, 99]) (fun t => t.mem.read 0) = some (-9223372036854775808) := by decide
theorem test_mul_large : see (mk [1102, 34915192, 34915192, 7, 4, 7, 99, 0]) (fun t => t.mem.read 7) =
    some 1219070632396864 := by decide
theorem test_inp_waits : see (mk [3, 0, 99]) (fun t => (t.inReq, t.pendDst, t.ip)) = some (true, some 0, 0) := by decide
theorem test_inp_no_hook :
    see (resetTo Config.standard [3, -1] false true []) (fun t => t.fr.map (fun f => f.cause)) =
      some (some .missingInputHook) := by decide
theorem test_out_presents : see (mk [204, 2, 7]) (fun t => (t.pendVal, t.outs, t.ip)) = some (some 7, [], 0) := by decide
theorem test_out_bad : see (mk [4, -1, 99]) (fun t => t.fr.map (fun f => f.detail)) =
    some (some (.address (-1) (.operand 1))) := by decide
theorem test_jt_negative_is_true : see (mk [1105, -5, 4]) (fun t => t.ip) = some 4 := by decide
/-- V-JMP: `105,0,-1,99`: not taken, but `p2` is resolved. -/
theorem test_jt_eager : see (mk [105, 0, -1, 99]) (fun t => t.fr.map (fun f => f.detail)) =
    some (some (.address (-1) (.operand 2))) := by decide
theorem test_jf_passed : see (mk [1106, 3, -1, 99]) (fun t => (t.ip, t.fr)) = some (3, none) := by decide
theorem test_jf_target : see (mk [1106, 0, -3, 99]) (fun t => (t.ip, t.fr.map (fun f => f.detail))) =
    some (0, some (.address (-3) .target)) := by decide
theorem test_lt_signed : see (mk [1107, -1, 0, 5, 99, 7]) (fun t => t.mem.read 5) = some 1 := by decide
theorem test_lt_equal_writes_zero : see (mk [1107, 8, 8, 5, 99, 7]) (fun t => t.mem.read 5) = some 0 := by decide
theorem test_eq_true : see (mk [1108, 8, 8, 5, 99, 7]) (fun t => t.mem.read 5) = some 1 := by decide
theorem test_eq_false : see (mk [8, 5, 6, 7, 99, 3, 99, 5]) (fun t => t.mem.read 7) = some 0 := by decide
/-- V-ARB: `109,2,209,1,99,0`: the operand is read with the old `rb = 2`. -/
theorem test_arb_old_base : see { mk [109, 2, 209, 1, 99, 0] with ip := 2, rb := 2 } (fun t => (t.rb, t.ip)) =
    some (3, 4) := by decide
theorem test_arb_top_faults : see { mk [109, 1] with rb := 9223372036854775807 } (fun t => (t.rb, t.fr.isSome)) =
    some (9223372036854775807, true) := by decide
theorem test_hlt : see (mk [10099, 0]) (fun t => (t.st, t.ip)) = some (.halted, 0) := by decide

/-! ## The host's events -/

/-- V-IO: `3,2,0`, input 99, lands in the next instruction. -/
theorem test_input_completes :
    see { mk [3, 2, 0] with st := .awaitingInput 2, host := [.inputValue 99] }
      (fun t => (t.mem.read 2, t.ip, t.st)) = some (99, 2, .running) := by decide
theorem test_input_unasked : why (step { mk [99] with host := [.inputValue 5] }) = some .unsolicitedInput := by decide
theorem test_accept_completes :
    see { mk [104, 5] with st := .awaitingOutput 5, outs := [4], host := [.outputAccept] }
      (fun t => (t.outs, t.ip, t.st)) = some ([4, 5], 2, .running) := by decide
/-- V-CAN: `99` with `cancel = 1` from the start ends `Cancelled`. -/
theorem test_cancel_beats_hlt : see { mk [99] with cancel := true } (fun t => (t.st, t.ip)) = some (.cancelled, 0) := by
  decide
theorem test_cancel_event_waits :
    see { mk [3, 0, 99] with st := .awaitingInput 0, host := [.cancel] } (fun t => (t.inReq, t.cancel)) =
      some (true, true) := by decide
theorem test_image_too_large : why (step { mk [] with host := [.reset [9223372036854775808] true true] }) =
    some .illegalImage := by decide
/-- V-HLT: the empty image faults on its first step with `raw = 0`. -/
theorem test_empty_image : see State.reset (fun t => t.fr) =
    some (some ⟨.unknownOpcode, 0, some 0, .nothing⟩) := by decide
/-- 48_host_interface.md R197. -/
theorem test_peek : (mk [7, 8]).peek 1 = some 8 ∧ (mk [7]).peek (-1) = none := by decide
theorem test_image_keeps_place : ((mk [5, 0, 7]).mem.read 0, (mk [5, 0, 7]).mem.read 1, (mk [5, 0, 7]).mem.read 2) =
    (5, 0, 7) := by decide

/-! ## Placing an instruction -/

theorem test_table_word : decodeTableWord 8 4 = some (.out .position .position .position) := by rfl
theorem test_table_word_refused : decodeTableWord 8 10 = none := by rfl
theorem test_fetch_word_runs :
    see (State.reset.withFetchWord 16 1101) (fun t => (t.ip, t.mem.read 0)) = some (4, 0) := by decide
theorem test_fetch_word_waits : see (State.reset.withFetchWord 8 4) (fun t => t.pendVal) = some (some 4) := by decide
/-- Log 9: bits 127..64 are the second word, two's complement. -/
theorem test_table_second_word : tableWord 128 (2 ^ 128 - 2 ^ 64 + 109) 1 = -1 := by rfl

/-! ## Witnesses: a state and operands that meet the hypotheses of a statement together -/

/-- `ip` at the last address of a machine with `AMAX = 4`, and the words around. -/
def tight (ip : Nat) (image : List Word) : State :=
  { resetTo { width := .bits 64, amax := .atMost 4 } image true true [] with ip := ip }

theorem witness_DecodeOfEncode : (Instr.add .relative .immediate .relative).wf = true := by rfl
theorem witness_EncodeOfDecode : decode 22299 = .ok (.hlt .relative .relative .relative) := by rfl
theorem witness_DecodeChecksInOrder_bounds :
    decode 100 = .error .unknownOpcode ∧ decode 100099 = .error .excessDigits ∧
    decode 22299 = .ok (.hlt .relative .relative .relative) ∧
    decode 301 = .error (.reservedMode 1 3) ∧ decode 3001 = .error (.reservedMode 2 3) ∧
    decode 39999 = .error (.reservedMode 1 9) ∧ decode 30001 = .error (.reservedMode 3 3) ∧
    decode 10008 = .error (.immediateWrite 3) ∧ decode 20008 = .ok (.eq .position .position .relative) ∧
    decode 10003 = .ok (.inp .position .position .immediate) := by
  refine ⟨rfl, rfl, rfl, rfl, rfl, rfl, rfl, rfl, rfl, rfl⟩
theorem witness_LengthFromOpcodeAlone :
    decode (8 : Nat) = .ok (.eq .position .position .position) ∧
    decode (6 : Nat) = .ok (.jf .position .position .position) ∧
    decode (9 : Nat) = .ok (.arb .position .position .position) ∧
    decode (99 : Nat) = .ok (.hlt .position .position .position) := by
  refine ⟨rfl, rfl, rfl, rfl⟩
theorem witness_WordRange :
    (64 ≤ 64) ∧ inRange Config.standard (-9223372036854775808) = true ∧
    inRange Config.standard (-9223372036854775809) = false ∧ inRange Config.standard 9223372036854775807 = true ∧
    inRange Config.standard 9223372036854775808 = false := by decide
theorem witness_ValidAddressRange :
    validAddr (tight 0 []).cfg 4 = some 4 ∧ validAddr (tight 0 []).cfg 5 = none ∧
    validAddr (tight 0 []).cfg 0 = some 0 ∧ validAddr Config.standard (-1) = none := by decide
theorem witness_MemoryReadsLastWritten :
    (Memory.write [(3, 5)] 3 0).read 3 = 0 ∧ (3 : Nat) ≠ 4 ∧ (0 : Nat) < [(7 : Word)].length := by decide
theorem witness_EqualReadsEqualMemories : Memory.wf [(3, 5), (9, -1)] := by decide
theorem witness_StepRunsDecodedInstruction :
    (mk [99]).AboutToRun (.hlt .position .position .position) := ⟨rfl, rfl, rfl, rfl, rfl⟩
theorem witness_CancelStopsBeforeFetch :
    (fun s : State => s.st = .running ∧ s.cancel = true ∧ s.enginesTurn = true) { mk [99] with cancel := true } :=
  ⟨rfl, rfl, rfl⟩
theorem witness_UnknownOpcodeFaults :
    (mk []).st = .running ∧ (mk []).cancel = false ∧ (mk []).enginesTurn = true ∧
    isAddr (mk []).cfg (mk []).ip = true ∧ (mk []).mem.read (mk []).ip = (0 : Nat) ∧
    (0 : Nat) % 100 ∉ [1, 2, 3, 4, 5, 6, 7, 8, 9, 99] := by decide
theorem witness_IllegalWordFaults :
    (tight 5 []).st = .running ∧ (tight 5 []).cancel = false ∧ (tight 5 []).enginesTurn = true ∧
    isAddr (tight 5 []).cfg 5 = false ∧ isAddr (mk [-1]).cfg 0 = true ∧ (mk [-1]).mem.read 0 < 0 ∧
    decode ((mk [100001]).mem.read 0) = .error .excessDigits ∧
    decode ((mk [399]).mem.read 0) = .error (.reservedMode 1 3) ∧
    decode ((mk [103]).mem.read 0) = .error (.immediateWrite 1) := by
  refine ⟨rfl, rfl, rfl, rfl, rfl, by decide, rfl, rfl, rfl⟩
theorem witness_EngineAlwaysAnswers : { mk [99] with host := [.engineTurn] }.enginesTurn = true := by rfl
theorem witness_OnlyHostBreachesRefused :
    why (step { mk [3] with st := .awaitingInput 0, host := [.inputValue 9223372036854775808] }) =
      some .inputOutOfRange ∧
    why (step { mk [99] with st := .halted, host := [.outputAccept] }) = some .unsolicitedAccept := by decide
theorem witness_RunningTurnOutcomes :
    (mk [99]).st = .running ∧ (mk [99]).enginesTurn = true ∧ step (mk [99]) = .next { mk [99] with st := .halted } := by
  refine ⟨rfl, rfl, rfl⟩
theorem witness_WaitStatesSurvive :
    (fun s : State => s.inReq = true ∧ step s = .next s) { mk [3, 0] with st := .awaitingInput 0 } := ⟨rfl, rfl⟩
theorem witness_TerminalStatesAbsorb :
    (fun s : State => s.over = true ∧ s.resetNext = false ∧ step s = .next s) { mk [99] with st := .halted } :=
  ⟨rfl, rfl, rfl⟩
theorem witness_ResetEstablishesInitialState :
    (fun s : State => s.host = .reset [4, 0, 9] false true :: [] ∧ legalImage s.cfg [4, 0, 9] = true)
      { mk [99] with st := .halted, host := [.reset [4, 0, 9] false true] } := ⟨rfl, by decide⟩
theorem witness_ParameterFetchFaults :
    (fun s : State => 1 ≤ 2 ∧ 2 ≤ (Instr.jt .position .position .position).paramCount ∧
      (∀ j, j < 2 → isAddr s.cfg (s.ip + j) = true) ∧ isAddr s.cfg (s.ip + 2) = false) (tight 3 [0, 0, 0, 5]) := by
  refine ⟨by decide, by decide, ?_, by decide⟩
  decide

theorem witness_FirstInvalidOperandDecides :
    (ParamIs (mk [1, -1, -2, -3]) 1 (-1) ∧ ParamIs (mk [1, -1, -2, -3]) 2 (-2) ∧ ParamIs (mk [1, -1, -2, -3]) 3 (-3) ∧
      isAddr (mk [1, -1, -2, -3]).cfg 0 = true ∧ OperandBad (mk [1, -1, -2, -3]) 1 .position (-1)) ∧
    (ValueIs (mk [1, 0, -2, -3]) 1 .position 1 ∧ OperandBad (mk [1, 0, -2, -3]) 2 .position (-2)) ∧
    (ValueIs (mk [1, 0, 0, -3]) 1 .position 1 ∧ ValueIs (mk [1, 0, 0, -3]) 2 .position 1 ∧
      OperandBad (mk [1, 0, 0, -3]) 3 .position (-3)) :=
  ⟨⟨⟨rfl, rfl⟩, ⟨rfl, rfl⟩, ⟨rfl, rfl⟩, rfl, _, ⟨rfl, rfl⟩, rfl, rfl⟩,
    ⟨⟨_, ⟨rfl, rfl⟩, .inr ⟨0, 0, rfl, rfl, rfl⟩⟩, _, ⟨rfl, rfl⟩, rfl, rfl⟩,
    ⟨_, ⟨rfl, rfl⟩, .inr ⟨0, 0, rfl, rfl, rfl⟩⟩, ⟨_, ⟨rfl, rfl⟩, .inr ⟨0, 0, rfl, rfl, rfl⟩⟩, _, ⟨rfl, rfl⟩, rfl, rfl⟩
theorem witness_InvalidOperandFaults :
    (isAddr (mk [105, 0, -1]).cfg 0 = true ∧ ParamIs (mk [105, 0, -1]) 2 (-1) ∧ ValueIs (mk [105, 0, -1]) 1 .immediate 0 ∧
      OperandBad (mk [105, 0, -1]) 2 .position (-1)) ∧
    (OperandBad { mk [209, 3] with rb := -5 } 1 .relative (-2) ∧ (mk [3, -1]).hasIn = true ∧ (mk [4, -1]).hasOut = true) :=
  ⟨⟨rfl, ⟨rfl, rfl⟩, ⟨_, ⟨rfl, rfl⟩, .inl ⟨rfl, rfl⟩⟩, _, ⟨rfl, rfl⟩, rfl, rfl⟩,
    ⟨_, ⟨rfl, rfl⟩, rfl, rfl⟩, rfl, rfl⟩

/-- One state for the instructions with three parameters: `#-1`, `[rb+2]` with `rb = 3`, destination `[7]`. -/
def three : State := { mk [11201, -1, 2, 7, 99, 40] with rb := 3 }

theorem witness_three_operands :
    ValueIs three 1 .immediate (-1) ∧ ValueIs three 2 .relative 40 ∧ DestIs three 3 .position 7 :=
  ⟨⟨_, ⟨rfl, rfl⟩, .inl ⟨rfl, rfl⟩⟩, ⟨_, ⟨rfl, rfl⟩, .inr ⟨5, 5, rfl, rfl, rfl⟩⟩, _, _, ⟨rfl, rfl⟩, rfl, rfl⟩
theorem witness_AddWritesExactSum : inRange three.cfg (-1 + 40) = true := by decide
theorem witness_MulWritesExactProduct : inRange three.cfg (-1 * 40) = true := by decide
/-- `LtWritesTruth` and `EqWritesTruth`: the operands of `three` resolve; here the destination does not. -/
theorem witness_LtEq_unresolved :
    ¬ ∃ a b d, ValueIs (mk [1107, 1, 2, -1]) 1 .immediate a ∧ ValueIs (mk [1107, 1, 2, -1]) 2 .immediate b ∧
      DestIs (mk [1107, 1, 2, -1]) 3 .position d := by
  rintro ⟨_, _, _, _, _, p, ea, hp, h1, h2⟩
  have e : p = -1 := hp.2.symm.trans rfl
  subst e
  cases h1
  have h : validAddr (mk [1107, 1, 2, -1]).cfg (-1) = none := by decide
  cases h.symm.trans h2
theorem witness_LtEq_words :
    decode (11107 : Nat) = .error (.immediateWrite 3) ∧ decode (11108 : Nat) = .error (.immediateWrite 3) ∧
    decode (3007 : Nat) = .error (.reservedMode 2 3) ∧ decode (100008 : Nat) = .error .excessDigits := by
  refine ⟨rfl, rfl, rfl, rfl⟩
theorem witness_ResultOutOfRangeFaults :
    (fun s : State => isAddr s.cfg s.ip = true ∧ ValueIs s 1 .immediate 9223372036854775807 ∧
      ValueIs s 2 .immediate 2 ∧ DestIs s 3 .position 0 ∧ inRange s.cfg (9223372036854775807 + 2) = false ∧
      inRange s.cfg (9223372036854775807 * 2) = false ∧ inRange s.cfg (s.rb + 9223372036854775807) = false)
      { mk [1101, 9223372036854775807, 2, 0] with rb := 1 } :=
  ⟨rfl, ⟨_, ⟨rfl, rfl⟩, .inl ⟨rfl, rfl⟩⟩, ⟨_, ⟨rfl, rfl⟩, .inl ⟨rfl, rfl⟩⟩, ⟨_, _, ⟨rfl, rfl⟩, rfl, rfl⟩,
    by decide, by decide, by decide⟩
theorem witness_JumpTransfers :
    ValueIs (mk [1105, -5, 4]) 1 .immediate (-5) ∧ ValueIs (mk [1105, -5, 4]) 2 .immediate 4 ∧
    validAddr (mk [1105, -5, 4]).cfg 4 = some 4 ∧ ValueIs (mk [1105, 0, 0]) 1 .immediate 0 ∧
    ValueIs (mk [1105, 0, 0]) 2 .immediate 0 ∧ validAddr (mk [1105, 0, 0]).cfg 0 = some 0 :=
  ⟨⟨_, ⟨rfl, rfl⟩, .inl ⟨rfl, rfl⟩⟩, ⟨_, ⟨rfl, rfl⟩, .inl ⟨rfl, rfl⟩⟩, rfl, ⟨_, ⟨rfl, rfl⟩, .inl ⟨rfl, rfl⟩⟩,
    ⟨_, ⟨rfl, rfl⟩, .inl ⟨rfl, rfl⟩⟩, rfl⟩
theorem witness_TakenJumpToInvalidTargetFaults :
    isAddr (mk [1105, 1, -1]).cfg 0 = true ∧ ValueIs (mk [1105, 1, -1]) 1 .immediate 1 ∧
    ValueIs (mk [1105, 1, -1]) 2 .immediate (-1) ∧ validAddr (mk [1105, 1, -1]).cfg (-1) = none ∧
    ValueIs (tight 0 [1106, 0, 5]) 1 .immediate 0 ∧ ValueIs (tight 0 [1106, 0, 5]) 2 .immediate 5 ∧
    validAddr (tight 0 [1106, 0, 5]).cfg 5 = none :=
  ⟨rfl, ⟨_, ⟨rfl, rfl⟩, .inl ⟨rfl, rfl⟩⟩, ⟨_, ⟨rfl, rfl⟩, .inl ⟨rfl, rfl⟩⟩, rfl, ⟨_, ⟨rfl, rfl⟩, .inl ⟨rfl, rfl⟩⟩,
    ⟨_, ⟨rfl, rfl⟩, .inl ⟨rfl, rfl⟩⟩, rfl⟩
theorem witness_ArbAddsToRelativeBase :
    ValueIs { mk [209, 1, 4] with rb := 1 } 1 .relative 4 ∧ inRange (mk []).cfg (1 + 4) = true :=
  ⟨⟨_, ⟨rfl, rfl⟩, .inr ⟨2, 2, rfl, rfl, rfl⟩⟩, by decide⟩
theorem witness_HltHalts : { mk [99] with host := [.engineTurn] }.AboutToRun (.hlt .position .position .position) :=
  ⟨rfl, rfl, rfl, rfl, rfl⟩
theorem witness_InputIssues : (mk [203, 5]).hasIn = true ∧ DestIs (mk [203, 5]) 1 .relative 5 :=
  ⟨rfl, _, _, ⟨rfl, rfl⟩, rfl, rfl⟩
theorem witness_InputCompletes :
    (fun s : State => s.st = .awaitingInput 0 ∧ s.host = .inputValue 1125899906842624 :: [] ∧
      inRange s.cfg 1125899906842624 = true)
      { mk [3, 0] with st := .awaitingInput 0, host := [.inputValue 1125899906842624] } := ⟨rfl, rfl, by decide⟩
theorem witness_OutputIssues : (mk [4, 0]).hasOut = true ∧ ValueIs (mk [4, 0]) 1 .position 4 :=
  ⟨rfl, _, ⟨rfl, rfl⟩, .inr ⟨0, 0, rfl, rfl, rfl⟩⟩
theorem witness_OutputCompletes :
    (fun s : State => s.st = .awaitingOutput 5 ∧ s.host = .outputAccept :: [])
      { mk [104, 5] with st := .awaitingOutput 5, host := [.outputAccept] } := ⟨rfl, rfl⟩
theorem witness_HookBits :
    (fun s : State => isAddr s.cfg s.ip = true ∧ s.hasIn = false ∧ s.hasOut = false ∧ s.resetNext = false ∧
      (got (step s)).isSome = true) (resetTo Config.standard [99] false false []) ∧
    (fun s : State => s.host = .reset [] true false :: [] ∧ (got (step s)).isSome = true)
      { mk [] with host := [.reset [] true false] } := by decide
theorem witness_StoringFrame :
    (got (exec (.lt .immediate .relative .position) three)).isSome = true ∧ ∀ d, DestIs three 3 .position d → 6 ≠ d := by
  refine ⟨by decide, ?_⟩
  rintro d hd rfl
  exact absurd (hd.unique witness_three_operands.2.2) (by decide)
theorem witness_NonStoringFrame : (got (exec (.arb .immediate .position .position) (mk [109, 1]))).isSome = true := by
  decide
theorem witness_InstructionPointerMoves :
    (mk [1105, 1, 0]).st = .running ∧
    (got (exec (.jt .immediate .immediate .position) (mk [1105, 1, 0]))).map (fun t => (t.st, t.ip)) =
      some (.running, 0) ∧
    (got (exec (.add .immediate .relative .position) three)).map (fun t => (t.st, t.ip)) = some (.running, 4) := by
  decide
theorem witness_FaultEntry :
    (mk []).st = .running ∧ (mk []).enginesTurn = true ∧
    step (mk []) = .next { mk [] with st := .faulted ⟨.unknownOpcode, 0, some 0, .nothing⟩ } := by
  refine ⟨rfl, rfl, rfl⟩
theorem witness_OnlyArbWritesRelativeBase : see (mk [109, 1]) (fun t => (t.rb, (mk [109, 1]).rb)) = some (1, 0) := by decide
theorem witness_OneCellWrittenByItsInstruction :
    (mk [1, 0, 0, 0]).resetNext = false ∧ (got (step (mk [1, 0, 0, 0]))).isSome = true := by decide
theorem witness_CancelIsALatch :
    (fun s : State => s.resetNext = false ∧ s.cancelNext = true ∧ see s (fun t => t.cancel) = some true)
      { mk [99] with host := [.cancel] } := by decide
theorem witness_OutputStreamGrowsByAccept :
    (fun s : State => s.resetNext = false ∧ s.host = .outputAccept :: [] ∧ see s (fun t => t.outs) = some [5])
      { mk [104, 5] with st := .awaitingOutput 5, host := [.outputAccept] } := by decide
theorem witness_ValueOfferedOnlyByOut :
    (mk [104, 5]).resetNext = false ∧ see (mk [104, 5]) (fun t => t.offered) = some [5] ∧ (mk [104, 5]).offered = [] := by
  decide
/-- V-ADD: `1101,100,-1,4,0` writes 99 at 4, fetched next as `HLT`. -/
theorem witness_StoreSeenByNextFetch :
    (fun s : State => s.AboutToRun (.add .immediate .immediate .position) ∧ ValueIs s 1 .immediate 100 ∧
      ValueIs s 2 .immediate (-1) ∧ DestIs s 3 .position (s.ip + 4) ∧ inRange s.cfg (100 + -1) = true ∧
      s.turnUsed.enginesTurn = true ∧ decode (100 + -1) = .ok (.hlt .position .position .position))
      (mk [1101, 100, -1, 4, 0]) :=
  ⟨⟨rfl, rfl, rfl, rfl, rfl⟩, ⟨_, ⟨rfl, rfl⟩, .inl ⟨rfl, rfl⟩⟩, ⟨_, ⟨rfl, rfl⟩, .inl ⟨rfl, rfl⟩⟩,
    ⟨_, _, ⟨rfl, rfl⟩, rfl, rfl⟩, by decide, rfl, rfl⟩
theorem witness_HostDelayInvisible : { mk [3, 0] with st := .awaitingInput 0 }.inReq = true := by rfl
theorem witness_PeekReadsMemory : validAddr (mk [7]).cfg 0 = some 0 ∧ validAddr (mk [7]).cfg (-1) = none := by decide
theorem witness_InstancesShareNothing :
    (1 : Nat) ≠ 0 ∧ Instances.stepAt [mk [99], mk [99]] 0 = .next [{ mk [99] with st := .halted }, mk [99]] :=
  ⟨by decide, rfl⟩
/-- A state off reset that meets the invariant: waiting for input with its latch. -/
theorem witness_StepKeepsInvariant :
    State.Inv { mk [3, 7] with st := .awaitingInput 7 } ∧
    (got (step { mk [3, 7] with st := .awaitingInput 7 })).isSome = true := by
  refine ⟨⟨rfl, by decide, by decide, by decide, by decide, rfl, _, _, _, rfl, _, _, ⟨rfl, rfl⟩, rfl, rfl⟩, by decide⟩
theorem witness_FiniteMachineRefinesInfinite :
    step (mk [99]) = .next { mk [99] with st := .halted } ∧ { mk [99] with st := .halted }.fr = none := ⟨rfl, rfl⟩

end Sys2Proof.Tests
end

section
/-! SUPPORT. Which integers are valid addresses (00_scope.md R7). -/
namespace Sys2Proof.Machine

theorem isAddr_atMost (wd : Width) (m n : Nat) :
    isAddr { width := wd, amax := .atMost m } n = true ↔ n ≤ m :=
  decide_eq_true_iff

theorem isAddr_unbounded (wd : Width) (n : Nat) : isAddr { width := wd, amax := .unbounded } n = true := rfl

/-- An integer is a valid address exactly when it is a natural number the limit admits. -/
theorem validAddr_isSome_iff {c : Config} {a : Int} :
    (validAddr c a).isSome = true ↔ ∃ n : Nat, a = n ∧ isAddr c n = true := by
  simp only [Option.isSome_iff_exists, validAddr_eq_some]

theorem validAddr_atMost_isSome (wd : Width) (m : Nat) (a : Int) :
    (validAddr { width := wd, amax := .atMost m } a).isSome = true ↔ 0 ≤ a ∧ a ≤ m := by
  simp only [validAddr_isSome_iff, isAddr_atMost]
  constructor
  · rintro ⟨n, rfl, hn⟩
    exact ⟨Int.natCast_nonneg n, Int.ofNat_le.2 hn⟩
  · rintro ⟨ha, ham⟩
    exact ⟨a.toNat, (Int.toNat_of_nonneg ha).symm, Int.toNat_le.2 ham⟩

theorem validAddr_unbounded_isSome (wd : Width) (a : Int) :
    (validAddr { width := wd, amax := .unbounded } a).isSome = true ↔ 0 ≤ a := by
  simp only [validAddr_isSome_iff, isAddr_unbounded, and_true]
  constructor
  · rintro ⟨n, rfl⟩
    exact Int.natCast_nonneg n
  · exact Int.eq_ofNat_of_zero_le

/-- Settles O8: a valid address is a natural number that the limit admits, for either limit. -/
theorem validAddressRange : Obligations.ValidAddressRange := by
  intro wd a
  refine ⟨fun m => validAddr_atMost_isSome wd m a, validAddr_unbounded_isSome wd a, ?_⟩
  intro am n h
  obtain ⟨ha, -⟩ := validAddr_eq_some.1 h
  exact ha.symm

end Sys2Proof.Machine
end

section
/-! SUPPORT. What a memory reads after a write and after an image is loaded (20_memory.md R50, R57). -/
namespace Sys2Proof.Machine

/-- An address whose cells are all dropped reads 0. -/
theorem Memory.read_filter_ne_same (m : Memory) (a : Nat) :
    Memory.read (m.filter (fun c => decide (c.1 ≠ a))) a = 0 :=
  Memory.read_eq_zero fun _ hc => of_decide_eq_true (List.mem_filter.1 hc).2

/-- Dropping the cells of `a` leaves what every other address reads. -/
theorem Memory.read_filter_ne_of_ne (m : Memory) {a b : Nat} (h : b ≠ a) :
    Memory.read (m.filter (fun c => decide (c.1 ≠ a))) b = m.read b := by
  induction m with
  | nil => rfl
  | cons c m ih =>
    obtain ⟨e, u⟩ := c
    by_cases hea : e = a
    · subst hea
      rw [List.filter_cons_of_neg (by simp), ih, Memory.read_cons, if_neg h]
    · rw [List.filter_cons_of_pos (by simpa using hea), Memory.read_cons, Memory.read_cons, ih]

/-- Once `v` is listed at `a` it reads there, and every other address reads as before; in any list of cells, sorted or
not, since the new cell stands before every old one for `a`. -/
theorem Memory.read_put (m : Memory) (a b : Nat) (v : Word) :
    (m.put a v).read b = if b = a then v else m.read b := by
  induction m with
  | nil => simp [Memory.put]
  | cons c m ih =>
    obtain ⟨e, u⟩ := c
    unfold Memory.put
    split
    · exact Memory.read_cons a v _ b
    · split
      · next hae =>
        subst hae
        by_cases hba : b = a <;> simp [hba]
      · next hae =>
        by_cases hbe : b = e
        · subst hbe
          simp [Ne.symm hae]
        · simp [hbe, ih]

/-- Read over write, with no condition on the list. -/
theorem Memory.read_write (m : Memory) (a b : Nat) (v : Word) :
    (m.write a v).read b = if b = a then v else m.read b := by
  unfold Memory.write
  split
  · next hv =>
    split
    · next hba => rw [hba, Memory.read_filter_ne_same, hv]
    · next hba => exact Memory.read_filter_ne_of_ne m hba
  · exact Memory.read_put m a b v

@[simp] theorem Memory.read_write_same (m : Memory) (a : Nat) (v : Word) : (m.write a v).read a = v := by
  rw [Memory.read_write, if_pos rfl]

theorem Memory.read_write_of_ne (m : Memory) {a b : Nat} (v : Word) (h : b ≠ a) : (m.write a v).read b = m.read b := by
  rw [Memory.read_write, if_neg h]

/-- An image placed from `a` on lists nothing below `a`. -/
theorem read_imageFrom_below (image : List Word) {a b : Nat} (h : b < a) : (imageFrom a image).read b = 0 :=
  Memory.read_eq_zero fun _ hc => Nat.ne_of_gt (Nat.lt_of_lt_of_le h (mem_imageFrom hc).1)

theorem imageFrom_cons (a : Nat) (v : Word) (vs : List Word) :
    imageFrom a (v :: vs) = if v = 0 then imageFrom (a + 1) vs else (a, v) :: imageFrom (a + 1) vs := rfl

/-- The first word of an image is read where the image is placed, whether it is listed or, being 0, not. -/
theorem read_imageFrom_first (v : Word) (vs : List Word) (a : Nat) : (imageFrom a (v :: vs)).read a = v := by
  rw [imageFrom_cons]
  split
  · next hv => rw [read_imageFrom_below vs (Nat.lt_succ_self a), hv]
  · rw [Memory.read_cons, if_pos rfl]

/-- Past its first address an image reads as its other words placed one address on. -/
theorem read_imageFrom_rest (v : Word) (vs : List Word) {a b : Nat} (h : b ≠ a) :
    (imageFrom a (v :: vs)).read b = (imageFrom (a + 1) vs).read b := by
  rw [imageFrom_cons]
  split
  · rfl
  · rw [Memory.read_cons, if_neg h]

/-- An image placed from `a` on reads its word number `i` at `a + i`, and 0 past its end. -/
theorem read_imageFrom (image : List Word) (a i : Nat) : (imageFrom a image).read (a + i) = image.getD i 0 := by
  induction image generalizing a i with
  | nil => rfl
  | cons v vs ih =>
    cases i with
    | zero => exact read_imageFrom_first v vs a
    | succ i =>
      have hi : a + (i + 1) = a + 1 + i := by omega
      rw [read_imageFrom_rest v vs (by omega), hi, ih, List.getD_cons_succ]

theorem Memory.read_ofImage (image : List Word) (a : Nat) : (Memory.ofImage image).read a = image.getD a 0 := by
  simpa [Memory.ofImage] using read_imageFrom image 0 a

/-- Settles O9: read over write, and the reads of an image by the place where it is put. -/
theorem memoryReadsLastWritten : Obligations.MemoryReadsLastWritten := by
  refine ⟨Memory.read_write_same, fun m a b v hab => Memory.read_write_of_ne m v hab.symm, fun image a => ?_⟩
  rw [Memory.read_ofImage]
  split
  · next h => exact List.getD_eq_getElem image 0 h
  · next h => exact List.getD_eq_default image 0 (Nat.le_of_not_lt h)

end Sys2Proof.Machine
end

section
/-! SUPPORT. What the decoder reads off a non-negative word by its low two digits (30_encoding.md R81, R83, R86), and
the length this gives (R85). -/
namespace Sys2Proof

@[simp] theorem opcodeField_eq_mod (n : Nat) : opcodeField n = n % 100 := by
  simp [opcodeField, digits]

@[simp] theorem decode_natCast (n : Nat) : decode (n : Int) = decodeNat n := rfl

/-- The opcode map gives only instructions of the opcode it is asked for. -/
theorem opcode_of_instrOfOpcode {op : Nat} {m1 m2 m3 : Mode} {i : Instr} (h : instrOfOpcode op m1 m2 m3 = some i) :
    i.opcode = op := by
  unfold instrOfOpcode at h
  split at h <;> cases h <;> rfl

theorem knownOpcode_iff {op : Nat} : knownOpcode op = true ↔ op ∈ [1, 2, 3, 4, 5, 6, 7, 8, 9, 99] := by
  constructor
  · intro h
    obtain ⟨i, hi⟩ := Option.isSome_iff_exists.1 h
    rw [← opcode_of_instrOfOpcode hi]
    cases i <;> simp [Instr.opcode]
  · intro h
    simp only [List.mem_cons, List.not_mem_nil, or_false] at h
    rcases h with rfl | rfl | rfl | rfl | rfl | rfl | rfl | rfl | rfl | rfl <;> rfl

/-- The check of the write mode passes an instruction on as it is. -/
theorem eq_of_checkWriteMode_ok {i j : Instr} (h : checkWriteMode i = .ok j) : j = i := by
  unfold checkWriteMode at h
  split at h <;> cases h <;> rfl

/-- A word that decodes has passed every check of 40_engine.md R113. -/
theorem decodeNat_ok_cases {n : Nat} {i : Instr} (h : decodeNat n = .ok i) :
    excessField n = 0 ∧ ∃ m1 m2 m3, modesOf n = .ok (m1, m2, m3) ∧
      instrOfOpcode (n % 100) m1 m2 m3 = some i ∧ checkWriteMode i = .ok i := by
  simp only [decodeNat, opcodeField_eq_mod] at h
  split at h
  · split at h
    · next hx =>
      split at h
      · cases h
      · next m1 m2 m3 hm =>
        split at h
        · next j hj =>
          obtain rfl := eq_of_checkWriteMode_ok h
          exact ⟨hx, m1, m2, m3, hm, hj, h⟩
        · cases h
    · cases h
  · cases h

theorem opcode_of_decodeNat_ok {n : Nat} {i : Instr} (h : decodeNat n = .ok i) : i.opcode = n % 100 := by
  obtain ⟨-, m1, m2, m3, -, hi, -⟩ := decodeNat_ok_cases h
  exact opcode_of_instrOfOpcode hi

theorem decodeNat_of_not_mem_opcodes {n : Nat} (h : n % 100 ∉ [1, 2, 3, 4, 5, 6, 7, 8, 9, 99]) :
    decodeNat n = .error .unknownOpcode := by
  rw [decodeNat, opcodeField_eq_mod, if_neg (mt knownOpcode_iff.1 h)]

/-- The rows of R83: parameter count, so length, by opcode. -/
theorem Instr.length_eq_of_opcode (i : Instr) :
    i.length = (if i.opcode ∈ [1, 2, 7, 8] then 4 else if i.opcode ∈ [5, 6] then 3
      else if i.opcode ∈ [3, 4, 9] then 2 else 1) := by
  cases i <;> rfl

/-- Settles O5: a word that decodes does so to an instruction of its own opcode, and the opcode gives the length. -/
theorem lengthFromOpcodeAlone : Obligations.LengthFromOpcodeAlone := by
  intro n i h
  rw [← opcode_of_decodeNat_ok h]
  exact i.length_eq_of_opcode

end Sys2Proof
end

section
/-! SUPPORT. The step over a word that is no instruction (40_engine.md R112, R113; 60_exceptions.md R230). -/
namespace Sys2Proof.Machine

theorem engineTurn_of_running {s : State} (h : s.st = .running) : engineTurn s = boundaryStep s := by
  rw [engineTurn, h]

theorem boundaryStep_of_fetchDecode_error {s : State} {c : Condition} (hc : s.cancel = false)
    (hf : fetchDecode s = .error c) : boundaryStep s = .next (raise c s) := by
  rw [boundaryStep, hc, hf]

/-- A word at a valid `ip` that does not decode raises the condition of its decode fault, and nothing else changes. -/
theorem step_of_decode_error {s : State} {e : DecodeFault} (hst : s.st = .running) (hc : s.cancel = false)
    (ht : s.enginesTurn = true) (ha : isAddr s.cfg s.ip = true) (hd : decode (s.mem.read s.ip) = .error e) :
    step s = .next (faultedWith s.turnUsed (conditionOf e).cause (conditionOf e).detail) := by
  have hf : fetchDecode s.turnUsed = .error (conditionOf e) := fetchDecode_eq_error.2 (.inr ⟨ha, e, hd, rfl⟩)
  calc step s = engineTurn s.turnUsed := step_of_enginesTurn ht
    _ = boundaryStep s.turnUsed := engineTurn_of_running hst
    _ = .next (raise (conditionOf e) s.turnUsed) := boundaryStep_of_fetchDecode_error hc hf
    _ = .next (faultedWith s.turnUsed (conditionOf e).cause (conditionOf e).detail) := by
      rw [raise_eq_faultedWith (s := s.turnUsed) ha]

/-- Settles O13: the opcode check comes first, so no other digit of the word matters. -/
theorem unknownOpcodeFaults : Obligations.UnknownOpcodeFaults := by
  intro s n hst hc ht ha hn hop
  have hd : decode (s.mem.read s.ip) = .error .unknownOpcode := by
    rw [hn, decode_natCast, decodeNat_of_not_mem_opcodes hop]
  exact step_of_decode_error hst hc ht ha hd

end Sys2Proof.Machine
end

section
/-! SUPPORT. Why the decoder refuses a word of a known opcode (30_encoding.md R88 to R90), and the instruction word as
a sum of its digits (R101). -/
namespace Sys2Proof

/-- The instruction word, digit by digit from the highest. -/
theorem encode_eq_digits (i : Instr) :
    encode i = 10000 * (i.modes.2.2.digit : Int) + 1000 * i.modes.2.1.digit + 100 * i.modes.1.digit + i.opcode := by
  rw [encode, Int.ofNat_eq_natCast]
  push_cast
  ring

theorem eq_one_of_modeOfDigit_immediate {x : Nat} (h : modeOfDigit x = some .immediate) : x = 1 := by
  unfold modeOfDigit at h
  split at h <;> cases h
  rfl

theorem third_digit_of_modesOf_ok {n : Nat} {m1 m2 m3 : Mode} (h : modesOf n = .ok (m1, m2, m3)) :
    modeOfDigit (n / 10000 % 10) = some m3 := by
  unfold modesOf at h
  split at h <;> cases h
  assumption

/-- Reading the modes off a word can only meet a reserved digit. -/
theorem modesOf_error {n : Nat} {e : DecodeFault} (h : modesOf n = .error e) : ∃ k d, e = .reservedMode k d := by
  unfold modesOf at h
  split at h <;> cases h <;> exact ⟨_, _, rfl⟩

/-- The check of the write mode refuses Immediate and nothing else. -/
theorem checkWriteMode_error {i : Instr} {e : DecodeFault} (h : checkWriteMode i = .error e) :
    ∃ k, i.writeMode = some (k, .immediate) ∧ e = .immediateWrite k := by
  unfold checkWriteMode at h
  split at h <;> cases h
  exact ⟨_, by assumption, rfl⟩

/-- A word whose opcode writes through its third parameter is refused only for excess digits, a reserved mode digit
or an Immediate third mode. -/
theorem decodeNat_error_of_thirdWrites {n : Nat} {e : DecodeFault} {mk : Mode → Mode → Mode → Instr}
    (hop : ∀ m1 m2 m3, instrOfOpcode (n % 100) m1 m2 m3 = some (mk m1 m2 m3))
    (hwrite : ∀ m1 m2 m3, (mk m1 m2 m3).writeMode = some (3, m3)) (h : decodeNat n = .error e) :
    e = .excessDigits ∨ (∃ k d, e = .reservedMode k d) ∨ (e = .immediateWrite 3 ∧ n / 10000 % 10 = 1) := by
  have hknown : knownOpcode (n % 100) = true := by rw [knownOpcode, hop]; rfl
  simp only [decodeNat, opcodeField_eq_mod, if_pos hknown] at h
  split at h
  · split at h
    · next e' hm =>
      cases h
      exact .inr (.inl (modesOf_error hm))
    · next m1 m2 m3 hm =>
      rw [hop] at h
      obtain ⟨k, hk, rfl⟩ := checkWriteMode_error h
      obtain ⟨rfl, rfl⟩ : 3 = k ∧ m3 = .immediate := by simpa [hwrite] using hk
      exact .inr (.inr ⟨rfl, eq_one_of_modeOfDigit_immediate (third_digit_of_modesOf_ok hm)⟩)
  · cases h
    exact .inl rfl

end Sys2Proof
end

section
/-! SUPPORT. `LT` and `EQ` (44_compare.md R170, R171): the truth word is written whenever the operands resolve, and
`InvalidAddress` is all that can happen where they do not. -/
namespace Sys2Proof.Machine

theorem truthWord_decide (q : Prop) [Decidable q] : truthWord (decide q) = if q then 1 else 0 := by
  simp [truthWord]

/-- Operands of format `RRW` with a legal write mode raise nothing but `InvalidAddress`: the three parameter
fetches, then the three resolutions. -/
theorem operandsRRW_error_of_ne_immediate {s : State} {m1 m2 m3 : Mode} {c : Condition} (hm : m3 ≠ .immediate)
    (h : operandsRRW s m1 m2 m3 = .error c) : c.cause = .invalidAddress := by
  have hparam : ∀ {k}, paramWord s k = .error c → c.cause = .invalidAddress := fun h => by
    obtain ⟨-, rfl⟩ := paramWord_eq_error.1 h
    rfl
  have hval : ∀ {k m p}, valOf s k m p = .error c → c.cause = .invalidAddress := fun h => by
    obtain ⟨_, -, rfl⟩ := valOf_eq_error h
    rfl
  unfold operandsRRW at h
  rcases bind_eq_error.1 h with h | ⟨_, -, h⟩
  · exact hparam h
  rcases bind_eq_error.1 h with h | ⟨_, -, h⟩
  · exact hparam h
  rcases bind_eq_error.1 h with h | ⟨_, -, h⟩
  · exact hparam h
  rcases bind_eq_error.1 h with h | ⟨_, -, h⟩
  · exact hval h
  rcases bind_eq_error.1 h with h | ⟨_, -, h⟩
  · exact hval h
  rcases bind_eq_error.1 h with h | ⟨_, -, h⟩
  · obtain ⟨_, -, rfl⟩ | ⟨himm, -⟩ := dstOf_eq_error h
    · rfl
    · exact absurd himm hm
  · cases h

theorem storeTruth_error_of_ne_immediate {p : Word → Word → Bool} {s : State} {m1 m2 m3 : Mode} {c : Condition}
    (hm : m3 ≠ .immediate) (h : storeTruth p m1 m2 m3 s = .error c) : c.cause = .invalidAddress := by
  unfold storeTruth at h
  rcases bind_eq_error.1 h with h | ⟨_, -, h⟩
  · exact operandsRRW_error_of_ne_immediate hm h
  · cases h

/-- A comparison whose operands resolve writes its truth word and goes on by 4. -/
theorem settle_storeTruth_of_resolved {p : Word → Word → Bool} {s : State} {m1 m2 m3 : Mode} {a b : Word} {d : Nat}
    (ha : ValueIs s 1 m1 a) (hb : ValueIs s 2 m2 b) (hd : DestIs s 3 m3 d) :
    settle s (storeTruth p m1 m2 m3 s) =
      .next { s with mem := s.mem.write d (truthWord (p a b)), ip := s.ip + 4 } := by
  rw [storeTruth_eq_ok.2 ⟨a, b, d, ha, hb, hd, rfl⟩]
  rfl

/-- A comparison with an operand that does not resolve is `Faulted` with `InvalidAddress`, and nothing else. -/
theorem settle_storeTruth_of_unresolved {p : Word → Word → Bool} {s : State} {m1 m2 m3 : Mode} (hm : m3 ≠ .immediate)
    (h : ¬ ∃ a b d, ValueIs s 1 m1 a ∧ ValueIs s 2 m2 b ∧ DestIs s 3 m3 d) :
    ∃ fr, settle s (storeTruth p m1 m2 m3 s) = .next { s with st := .faulted fr } ∧ fr.cause = .invalidAddress := by
  cases hr : storeTruth p m1 m2 m3 s with
  | ok t =>
    obtain ⟨a, b, d, ha, hb, hd, -⟩ := storeTruth_eq_ok.1 hr
    exact absurd ⟨a, b, d, ha, hb, hd⟩ h
  | error c => exact ⟨faultRecord c s, rfl, storeTruth_error_of_ne_immediate hm hr⟩

/-- Settles O28: the word by its digits, the decoder's refusals by the write mode of opcode 7, and `exec` by whether
the operands resolve. -/
theorem ltWritesTruth : Obligations.LtWritesTruth := by
  intro m1 m2 m3 s
  refine ⟨encode_eq_digits (.lt m1 m2 m3), rfl, ?refusals, ?resolved, settle_storeTruth_of_unresolved⟩
  case refusals =>
    intro n e hn h
    exact decodeNat_error_of_thirdWrites (mk := .lt) (by simp [hn, instrOfOpcode]) (fun _ _ _ => rfl) h
  case resolved =>
    intro a b d ha hb hd
    rw [← truthWord_decide]
    exact settle_storeTruth_of_resolved ha hb hd

/-- Settles O29: as for `LT`, with opcode 8 and equality. -/
theorem eqWritesTruth : Obligations.EqWritesTruth := by
  intro m1 m2 m3 s
  refine ⟨encode_eq_digits (.eq m1 m2 m3), rfl, ?refusals, ?resolved, settle_storeTruth_of_unresolved⟩
  case refusals =>
    intro n e hn h
    exact decodeNat_error_of_thirdWrites (mk := .eq) (by simp [hn, instrOfOpcode]) (fun _ _ _ => rfl) h
  case resolved =>
    intro a b d ha hb hd
    rw [← truthWord_decide]
    exact settle_storeTruth_of_resolved ha hb hd

end Sys2Proof.Machine
end

section
/-! SUPPORT. The decoder and the encoder as inverses of each other (30_encoding.md R81 to R92, R101), and every
refusal of the decoder in the order of 40_engine.md R113. -/
namespace Sys2Proof

/-! ## Mode digits (R82, R89) -/

@[simp] theorem modeOfDigit_digit (m : Mode) : modeOfDigit m.digit = some m := by
  cases m <;> rfl

theorem digit_of_modeOfDigit {x : Nat} {m : Mode} (h : modeOfDigit x = some m) : m.digit = x := by
  unfold modeOfDigit at h
  split at h <;> cases h <;> rfl

theorem Mode.digit_lt_three (m : Mode) : m.digit < 3 := by
  cases m <;> decide

theorem modeOfDigit_of_three_le {x : Nat} (h : 3 ≤ x) : modeOfDigit x = none := by
  obtain ⟨y, rfl⟩ := Nat.exists_eq_add_of_le' h
  rfl

theorem exists_mode_of_lt_three {x : Nat} (h : x < 3) : ∃ m, modeOfDigit x = some m ∧ m.digit = x := by
  have hx : x = 0 ∨ x = 1 ∨ x = 2 := by omega
  rcases hx with rfl | rfl | rfl
  · exact ⟨.position, rfl, rfl⟩
  · exact ⟨.immediate, rfl, rfl⟩
  · exact ⟨.relative, rfl, rfl⟩

/-- The modes of a word are those its digits 2, 3 and 4 name. -/
theorem modesOf_eq_ok {n : Nat} {m1 m2 m3 : Mode} :
    modesOf n = .ok (m1, m2, m3) ↔
      m1.digit = n / 100 % 10 ∧ m2.digit = n / 1000 % 10 ∧ m3.digit = n / 10000 % 10 := by
  constructor
  · intro h
    unfold modesOf at h
    split at h <;> cases h
    exact ⟨digit_of_modeOfDigit (by assumption), digit_of_modeOfDigit (by assumption),
      digit_of_modeOfDigit (by assumption)⟩
  · rintro ⟨h1, h2, h3⟩
    have e1 : digit n 2 = m1.digit := h1.symm
    have e2 : digit n 3 = m2.digit := h2.symm
    have e3 : digit n 4 = m3.digit := h3.symm
    simp [modesOf, e1, e2, e3]

/-- The lowest reserved digit decides (R226). -/
theorem modesOf_of_first_reserved {n : Nat} (h : 3 ≤ digit n 2) :
    modesOf n = .error (.reservedMode 1 (digit n 2)) := by
  simp [modesOf, modeOfDigit_of_three_le h]

theorem modesOf_of_second_reserved {n : Nat} (h1 : digit n 2 < 3) (h2 : 3 ≤ digit n 3) :
    modesOf n = .error (.reservedMode 2 (digit n 3)) := by
  obtain ⟨m1, hm1, -⟩ := exists_mode_of_lt_three h1
  simp [modesOf, hm1, modeOfDigit_of_three_le h2]

theorem modesOf_of_third_reserved {n : Nat} (h1 : digit n 2 < 3) (h2 : digit n 3 < 3) (h3 : 3 ≤ digit n 4) :
    modesOf n = .error (.reservedMode 3 (digit n 4)) := by
  obtain ⟨m1, hm1, -⟩ := exists_mode_of_lt_three h1
  obtain ⟨m2, hm2, -⟩ := exists_mode_of_lt_three h2
  simp [modesOf, hm1, hm2, modeOfDigit_of_three_le h3]

/-! ## The opcode map (R83) and the write mode (R90) -/

/-- Opcode and modes say what an instruction is. -/
theorem instrOfOpcode_opcode_modes (i : Instr) :
    instrOfOpcode i.opcode i.modes.1 i.modes.2.1 i.modes.2.2 = some i := by
  cases i <;> rfl

theorem modes_of_instrOfOpcode {op : Nat} {m1 m2 m3 : Mode} {i : Instr} (h : instrOfOpcode op m1 m2 m3 = some i) :
    i.modes = (m1, m2, m3) := by
  unfold instrOfOpcode at h
  split at h <;> cases h <;> rfl

theorem Instr.opcode_mem (i : Instr) : i.opcode ∈ [1, 2, 3, 4, 5, 6, 7, 8, 9, 99] := by
  cases i <;> simp [Instr.opcode]

theorem exists_instrOfOpcode {op : Nat} (h : op ∈ [1, 2, 3, 4, 5, 6, 7, 8, 9, 99]) (m1 m2 m3 : Mode) :
    ∃ i, instrOfOpcode op m1 m2 m3 = some i := by
  obtain ⟨j, hj⟩ := Option.isSome_iff_exists.1 (knownOpcode_iff.2 h)
  rw [← opcode_of_instrOfOpcode hj]
  cases j <;> exact ⟨_, rfl⟩

/-- The check of the write mode is well-formedness. -/
theorem checkWriteMode_of_wf {i : Instr} (h : i.wf = true) : checkWriteMode i = .ok i := by
  unfold checkWriteMode
  unfold Instr.wf at h
  split <;> simp_all

theorem wf_of_checkWriteMode_ok {i j : Instr} (h : checkWriteMode i = .ok j) : i.wf = true := by
  unfold checkWriteMode at h
  unfold Instr.wf
  split at h <;> simp_all

/-- Which parameter is written, by the opcode (R83). -/
theorem Instr.writeMode_eq_of_opcode (i : Instr) :
    i.writeMode = if i.opcode ∈ [1, 2, 7, 8] then some (3, i.modes.2.2)
      else if i.opcode = 3 then some (1, i.modes.1) else none := by
  cases i <;> rfl

theorem checkWriteMode_of_third_immediate {i : Instr} (hop : i.opcode ∈ [1, 2, 7, 8])
    (hm : i.modes.2.2 = .immediate) : checkWriteMode i = .error (.immediateWrite 3) := by
  rw [checkWriteMode, i.writeMode_eq_of_opcode, if_pos hop, hm]

theorem checkWriteMode_of_first_immediate {i : Instr} (hop : i.opcode = 3) (hm : i.modes.1 = .immediate) :
    checkWriteMode i = .error (.immediateWrite 1) := by
  rw [checkWriteMode, i.writeMode_eq_of_opcode, hop, hm]
  rfl

/-- An instruction is well-formed where neither of the two write parameters of R90 is Immediate. -/
theorem Instr.wf_of_modes_ne_immediate {i : Instr} (h3 : i.opcode ∈ [1, 2, 7, 8] → i.modes.2.2 ≠ .immediate)
    (h1 : i.opcode = 3 → i.modes.1 ≠ .immediate) : i.wf = true := by
  rw [Instr.wf, i.writeMode_eq_of_opcode]
  split_ifs with hthird hfirst
  · cases hm : i.modes.2.2 with
    | immediate => exact absurd hm (h3 hthird)
    | position => rfl
    | relative => rfl
  · cases hm : i.modes.1 with
    | immediate => exact absurd hm (h1 hfirst)
    | position => rfl
    | relative => rfl
  · rfl

/-! ## Decoding a natural number, check by check (40_engine.md R113) -/

theorem decodeNat_of_excess {n : Nat} (hop : n % 100 ∈ [1, 2, 3, 4, 5, 6, 7, 8, 9, 99]) (hx : 100000 ≤ n) :
    decodeNat n = .error .excessDigits := by
  have he : excessField n ≠ 0 := by
    simp only [excessField]
    omega
  rw [decodeNat, opcodeField_eq_mod, if_pos (knownOpcode_iff.2 hop), if_neg he]

/-- Past the checks of opcode and excess digits the modes decide. -/
theorem decodeNat_of_modesOf_error {n : Nat} {e : DecodeFault} (hop : n % 100 ∈ [1, 2, 3, 4, 5, 6, 7, 8, 9, 99])
    (hx : n < 100000) (hm : modesOf n = .error e) : decodeNat n = .error e := by
  have he : excessField n = 0 := Nat.div_eq_of_lt hx
  rw [decodeNat, opcodeField_eq_mod, if_pos (knownOpcode_iff.2 hop), if_pos he, hm]

/-- Past the reserved modes too, only the write mode is left to check. -/
theorem decodeNat_of_modesOf_ok {n : Nat} {m1 m2 m3 : Mode} {i : Instr} (hx : n < 100000)
    (hm : modesOf n = .ok (m1, m2, m3)) (hi : instrOfOpcode (n % 100) m1 m2 m3 = some i) :
    decodeNat n = checkWriteMode i := by
  have hop : n % 100 ∈ [1, 2, 3, 4, 5, 6, 7, 8, 9, 99] := opcode_of_instrOfOpcode hi ▸ i.opcode_mem
  have he : excessField n = 0 := Nat.div_eq_of_lt hx
  rw [decodeNat, opcodeField_eq_mod, if_pos (knownOpcode_iff.2 hop), if_pos he, hm]
  simp only [hi]

/-! ## Decoder and encoder -/

/-- A natural number decodes to `i` exactly when `i` is well-formed and its opcode and modes are the fields of the
number, which has no digit beyond them. -/
theorem decodeNat_eq_ok_iff {n : Nat} {i : Instr} :
    decodeNat n = .ok i ↔ i.wf = true ∧ n < 100000 ∧ n % 100 = i.opcode ∧ n / 100 % 10 = i.modes.1.digit ∧
      n / 1000 % 10 = i.modes.2.1.digit ∧ n / 10000 % 10 = i.modes.2.2.digit := by
  constructor
  · intro h
    obtain ⟨hx, m1, m2, m3, hm, hi, hc⟩ := decodeNat_ok_cases h
    obtain ⟨h1, h2, h3⟩ := modesOf_eq_ok.1 hm
    have hlt : n < 100000 := Nat.lt_of_div_eq_zero (by decide) hx
    rw [modes_of_instrOfOpcode hi]
    exact ⟨wf_of_checkWriteMode_ok hc, hlt, (opcode_of_instrOfOpcode hi).symm, h1.symm, h2.symm, h3.symm⟩
  · rintro ⟨hwf, hlt, hop, h1, h2, h3⟩
    have hm : modesOf n = .ok (i.modes.1, i.modes.2.1, i.modes.2.2) :=
      modesOf_eq_ok.2 ⟨h1.symm, h2.symm, h3.symm⟩
    rw [decodeNat_of_modesOf_ok hlt hm (hop ▸ instrOfOpcode_opcode_modes i), checkWriteMode_of_wf hwf]

theorem Instr.opcode_lt (i : Instr) : i.opcode < 100 := by
  cases i <;> simp [Instr.opcode]

/-- A number below 100000 is the sum of its decimal fields, and no other fields in their ranges add up to it. -/
theorem fields_iff_sum {n op d1 d2 d3 : Nat} (hop : op < 100) (h1 : d1 < 10) (h2 : d2 < 10) (h3 : d3 < 10) :
    (n < 100000 ∧ n % 100 = op ∧ n / 100 % 10 = d1 ∧ n / 1000 % 10 = d2 ∧ n / 10000 % 10 = d3) ↔
      op + 100 * d1 + 1000 * d2 + 10000 * d3 = n := by
  constructor
  · omega
  · intro h
    have e1 : n / 100 = d1 + 10 * d2 + 100 * d3 := by omega
    have e2 : n / 1000 = d2 + 10 * d3 := by omega
    have e3 : n / 10000 = d3 := by omega
    omega

theorem decodeNat_eq_ok_iff_encode {n : Nat} {i : Instr} : decodeNat n = .ok i ↔ i.wf = true ∧ encode i = n := by
  have hdigit (m : Mode) : m.digit < 10 := Nat.lt_trans m.digit_lt_three (by decide)
  rw [decodeNat_eq_ok_iff, fields_iff_sum i.opcode_lt (hdigit _) (hdigit _) (hdigit _)]
  exact and_congr_right fun _ => Int.ofNat_inj.symm

/-- Settles O1: the encoding is a natural number, and such a number decodes to what encodes to it. -/
theorem decodeOfEncode : Obligations.DecodeOfEncode := by
  intro i hwf
  exact decodeNat_eq_ok_iff_encode.2 ⟨hwf, rfl⟩

/-- Settles O2: a negative word does not decode, and a natural number only to what encodes to it. -/
theorem encodeOfDecode : Obligations.EncodeOfDecode := by
  intro w i h
  cases w with
  | ofNat n => exact decodeNat_eq_ok_iff_encode.1 h
  | negSucc n => cases h

/-- With known opcode, no excess digit and no reserved mode the word names an instruction by its fields, and only the
check of its write mode is left. -/
theorem exists_instr_of_fields {n : Nat} (hop : n % 100 ∈ [1, 2, 3, 4, 5, 6, 7, 8, 9, 99]) (hx : n < 100000)
    (h1 : n / 100 % 10 < 3) (h2 : n / 1000 % 10 < 3) (h3 : n / 10000 % 10 < 3) :
    ∃ i, decodeNat n = checkWriteMode i ∧ i.opcode = n % 100 ∧ i.modes.1.digit = n / 100 % 10 ∧
      i.modes.2.1.digit = n / 1000 % 10 ∧ i.modes.2.2.digit = n / 10000 % 10 := by
  obtain ⟨m1, -, e1⟩ := exists_mode_of_lt_three h1
  obtain ⟨m2, -, e2⟩ := exists_mode_of_lt_three h2
  obtain ⟨m3, -, e3⟩ := exists_mode_of_lt_three h3
  obtain ⟨i, hi⟩ := exists_instrOfOpcode hop m1 m2 m3
  refine ⟨i, decodeNat_of_modesOf_ok hx (modesOf_eq_ok.2 ⟨e1, e2, e3⟩) hi, opcode_of_instrOfOpcode hi, ?_⟩
  rw [modes_of_instrOfOpcode hi]
  exact ⟨e1, e2, e3⟩

theorem Mode.eq_immediate_iff {m : Mode} : m = .immediate ↔ m.digit = 1 := by
  cases m <;> decide

/-- Settles O3: one lemma for each check, in the order of the checks; past the reserved modes the word names an
instruction whose write mode decides. -/
theorem decodeChecksInOrder : Obligations.DecodeChecksInOrder := by
  refine ⟨fun _ => rfl, fun n => ?_⟩
  intro op m1 m2 m3
  rw [decode_natCast]
  by_cases hop : op ∈ [1, 2, 3, 4, 5, 6, 7, 8, 9, 99]
  swap; · rw [if_pos hop]; exact decodeNat_of_not_mem_opcodes hop
  rw [if_neg (not_not.2 hop)]
  split
  · next hx => exact decodeNat_of_excess hop hx
  next hx =>
  replace hx := Nat.lt_of_not_le hx
  split
  · next h1 => exact decodeNat_of_modesOf_error hop hx (modesOf_of_first_reserved h1)
  next h1 =>
  replace h1 := Nat.lt_of_not_le h1
  split
  · next h2 => exact decodeNat_of_modesOf_error hop hx (modesOf_of_second_reserved h1 h2)
  next h2 =>
  replace h2 := Nat.lt_of_not_le h2
  split
  · next h3 => exact decodeNat_of_modesOf_error hop hx (modesOf_of_third_reserved h1 h2 h3)
  next h3 =>
  obtain ⟨i, hi, eop, e1, e2, e3⟩ := exists_instr_of_fields hop hx h1 h2 (Nat.lt_of_not_le h3)
  change i.opcode = op at eop
  rw [hi, ← eop]
  split
  · next h => exact checkWriteMode_of_third_immediate h.1 (Mode.eq_immediate_iff.2 (e3.trans h.2))
  next hthird =>
  split
  · next h => exact checkWriteMode_of_first_immediate h.1 (Mode.eq_immediate_iff.2 (e1.trans h.2))
  next hfirst =>
  have hwf : i.wf = true := Instr.wf_of_modes_ne_immediate
    (fun h hm => hthird ⟨h, e3.symm.trans (Mode.eq_immediate_iff.1 hm)⟩)
    (fun h hm => hfirst ⟨h, e1.symm.trans (Mode.eq_immediate_iff.1 hm)⟩)
  exact ⟨i, checkWriteMode_of_wf hwf, rfl, e1, e2, e3⟩

/-- Settles O4: the decoder computes on each of the words. -/
theorem sampleWordsDecode : Obligations.SampleWordsDecode :=
  ⟨rfl, rfl, rfl, rfl, rfl, rfl, rfl, rfl, rfl, rfl, rfl, rfl, rfl, rfl, rfl⟩

end Sys2Proof
end

section
/-! SUPPORT. The range of a word (00_scope.md R6), and memories as data: what they read determines them (20_memory.md
R50, R51). -/
namespace Sys2Proof.Machine

theorem inRange_bits_iff (w : Nat) (am : AddrLimit) (v : Int) :
    inRange { width := .bits w, amax := am } v = true ↔ -(2 ^ (w - 1)) ≤ v ∧ v ≤ 2 ^ (w - 1) - 1 := by
  simp only [inRange, Bool.and_eq_true, decide_eq_true_eq, Int.ofNat_eq_natCast, Nat.cast_pow, Nat.cast_ofNat,
    Int.le_sub_one_iff]

/-- Settles O7: the two bounds of `inRange`, at every width. -/
theorem wordRange : Obligations.WordRange :=
  fun am v => ⟨fun w _ => inRange_bits_iff w am v, rfl⟩

/-! ## Canonical memories -/

theorem Memory.wf_tail {c : Cell} {m : Memory} (h : Memory.wf (c :: m)) : Memory.wf m :=
  ⟨(List.pairwise_cons.1 h.1).2, fun d hd => h.2 d (List.mem_cons_of_mem _ hd)⟩

/-- A canonical memory reads 0 up to and including its first listed address once that cell is dropped. -/
theorem Memory.read_tail_of_le {c : Cell} {m : Memory} (h : Memory.wf (c :: m)) {a : Nat} (ha : a ≤ c.1) :
    m.read a = 0 :=
  Memory.read_eq_zero fun _ hd => Nat.ne_of_gt (Nat.lt_of_le_of_lt ha ((List.pairwise_cons.1 h.1).1 _ hd))

theorem Memory.read_head (c : Cell) (m : Memory) : Memory.read (c :: m) c.1 = c.2 := by
  rw [Memory.read_cons, if_pos rfl]

theorem Memory.read_cons_of_ne {c : Cell} {m : Memory} {a : Nat} (h : a ≠ c.1) :
    Memory.read (c :: m) a = m.read a := by
  rw [Memory.read_cons, if_neg h]

/-- Of two canonical memories that read alike, neither begins at a lower address than the other: it holds no 0 there. -/
theorem Memory.head_le_of_read_eq {c d : Cell} {m m' : Memory} (h : Memory.wf (c :: m)) (h' : Memory.wf (d :: m'))
    (hr : ∀ a, Memory.read (c :: m) a = Memory.read (d :: m') a) : d.1 ≤ c.1 := by
  by_contra hlt
  have hz : Memory.read (d :: m') c.1 = 0 := by
    rw [Memory.read_cons_of_ne (by omega), Memory.read_tail_of_le h' (by omega)]
  exact h.2 c (by simp) ((Memory.read_head c m).symm.trans ((hr c.1).trans hz))

/-- Settles O10: the first cells agree, since neither memory may begin lower and both list no 0; dropping them leaves
memories that read alike. -/
theorem equalReadsEqualMemories : Obligations.EqualReadsEqualMemories := by
  intro m
  induction m with
  | nil =>
    intro m' _ h' hr
    cases m' with
    | nil => rfl
    | cons d m' => exact absurd ((hr d.1).trans (Memory.read_head d m')).symm (h'.2 d (by simp))
  | cons c m ih =>
    intro m' h h' hr
    cases m' with
    | nil => exact absurd ((Memory.read_head c m).symm.trans (hr c.1)) (h.2 c (by simp))
    | cons d m' =>
      have haddr : c.1 = d.1 :=
        Nat.le_antisymm (Memory.head_le_of_read_eq h' h fun a => (hr a).symm) (Memory.head_le_of_read_eq h h' hr)
      have hword : c.2 = d.2 := by
        rw [← Memory.read_head c m, ← Memory.read_head d m', hr c.1, haddr]
      obtain rfl : c = d := Prod.ext haddr hword
      have htail : ∀ a, Memory.read m a = Memory.read m' a := by
        intro a
        by_cases ha : a = c.1
        · rw [Memory.read_tail_of_le h ha.le, Memory.read_tail_of_le h' ha.le]
        · exact (Memory.read_cons_of_ne ha).symm.trans ((hr a).trans (Memory.read_cons_of_ne ha))
      rw [ih m' (Memory.wf_tail h) (Memory.wf_tail h') htail]

end Sys2Proof.Machine
end

section
/-! SUPPORT. What `exec` answers, from the instruction's operands: its effect where they resolve (`exec_of_effect`, the
converse of `exec_cases`), the fault of the first check that fails where they do not (60_exceptions.md R231). -/
namespace Sys2Proof.Machine

/-! ## Effects -/

theorem settle_of_ok {s t : State} {r : Except Condition State} (h : r = .ok t) : settle s r = .next t :=
  settle_eq_next.2 (.inl h)

/-- Whenever the operands give an instruction its effect, that is what `exec` answers. -/
theorem exec_of_effect {i : Instr} {s t : State} (h : Effect s i t) : exec i s = .next t := by
  cases h with
  | add ha hb hd hr => exact settle_of_ok (storeResult_eq_ok.2 ⟨_, _, _, ha, hb, hd, hr, rfl⟩)
  | mul ha hb hd hr => exact settle_of_ok (storeResult_eq_ok.2 ⟨_, _, _, ha, hb, hd, hr, rfl⟩)
  | inp hin hd =>
    exact settle_of_ok (bind_eq_ok.2 ⟨(), hookCheck_eq_ok.2 hin, bind_eq_ok.2 ⟨_, operandW_eq_ok.2 hd, rfl⟩⟩)
  | out hout hv =>
    exact settle_of_ok (bind_eq_ok.2 ⟨(), hookCheck_eq_ok.2 hout, bind_eq_ok.2 ⟨_, operandR_eq_ok.2 hv, rfl⟩⟩)
  | jtTaken ha hv hz hn =>
    exact settle_of_ok (jumpWhen_eq_ok.2 ⟨_, _, ha, hv, .inl ⟨by simpa [jumpTest] using hz, _, hn, rfl⟩⟩)
  | jtPassed ha hv hz =>
    exact settle_of_ok (jumpWhen_eq_ok.2 ⟨_, _, ha, hv, .inr ⟨by simpa [jumpTest] using hz, rfl⟩⟩)
  | jfTaken ha hv hz hn =>
    exact settle_of_ok (jumpWhen_eq_ok.2 ⟨_, _, ha, hv, .inl ⟨by simpa [jumpTest] using hz, _, hn, rfl⟩⟩)
  | jfPassed ha hv hz =>
    exact settle_of_ok (jumpWhen_eq_ok.2 ⟨_, _, ha, hv, .inr ⟨by simpa [jumpTest] using hz, rfl⟩⟩)
  | lt ha hb hd =>
    rw [← truthWord_decide]
    exact settle_of_ok (storeTruth_eq_ok.2 ⟨_, _, _, ha, hb, hd, rfl⟩)
  | eq ha hb hd =>
    rw [← truthWord_decide]
    exact settle_of_ok (storeTruth_eq_ok.2 ⟨_, _, _, ha, hb, hd, rfl⟩)
  | arb ha hr =>
    exact settle_of_ok (bind_eq_ok.2 ⟨_, operandR_eq_ok.2 ha, bind_eq_ok.2 ⟨_, rangeCheck_eq_ok.2 ⟨hr, rfl⟩, rfl⟩⟩)
  | hlt => rfl

/-- Settles O25: the effect of `ADD`. -/
theorem addWritesExactSum : Obligations.AddWritesExactSum := by
  intro m1 m2 m3 s a b d ha hb hd hr
  exact exec_of_effect (.add ha hb hd hr)

/-- Settles O26: the effect of `MUL`. -/
theorem mulWritesExactProduct : Obligations.MulWritesExactProduct := by
  intro m1 m2 m3 s a b d ha hb hd hr
  exact exec_of_effect (.mul ha hb hd hr)

/-- Settles O30: the two effects of `JT`. -/
theorem jumpIfTrueTransfers : Obligations.JumpIfTrueTransfers := by
  intro m1 m2 n3 s a t ha ht
  exact ⟨fun n hz hn => exec_of_effect (.jtTaken ha ht hz hn), fun hz => exec_of_effect (.jtPassed ha ht hz)⟩

/-- Settles O31: the two effects of `JF`. -/
theorem jumpIfFalseTransfers : Obligations.JumpIfFalseTransfers := by
  intro m1 m2 n3 s a t ha ht
  exact ⟨fun n hz hn => exec_of_effect (.jfTaken ha ht hz hn), fun hz => exec_of_effect (.jfPassed ha ht hz)⟩

/-- Settles O33: the effect of `ARB`. -/
theorem arbAddsToRelativeBase : Obligations.ArbAddsToRelativeBase := by
  intro m1 n2 n3 s a ha hr
  exact exec_of_effect (.arb ha hr)

/-- Settles O35: the effect of `IN` at its issue. -/
theorem inputIssues : Obligations.InputIssues := by
  intro m1 n2 n3 s d hin hd
  exact exec_of_effect (.inp hin hd)

/-- Settles O37: the effect of `OUT` at its issue. -/
theorem outputIssues : Obligations.OutputIssues := by
  intro m1 n2 n3 s v hout hv
  exact exec_of_effect (.out hout hv)

/-- Settles O6: dispatch passes no unused mode on. -/
theorem unusedModesIgnored : Obligations.UnusedModesIgnored :=
  fun _ _ _ _ _ _ _ _ _ => ⟨rfl, rfl, rfl, rfl, rfl, rfl⟩

/-- Every instruction ends in a next state, its effect or a fault. -/
theorem exec_answers (i : Instr) (s : State) : ∃ t, exec i s = .next t := by
  cases i with
  | hlt m1 m2 m3 => exact ⟨_, rfl⟩
  | _ => exact settle_answers s _

/-! ## Faults -/

/-- At a valid `ip` the end of an instruction that raised a condition is the state with its record. -/
theorem settle_of_error {s : State} {r : Except Condition State} {c : Condition} (hip : isAddr s.cfg s.ip = true)
    (h : r = .error c) : settle s r = .next (faultedWith s c.cause c.detail) := by
  rw [h, settle_error, raise_eq_faultedWith hip]

section
variable {s : State} {c : Condition} (hip : isAddr s.cfg s.ip = true)
include hip

/-! A fault in the operands is the instruction's fault, format by format (30_encoding.md R84). -/

theorem exec_of_operandsRRW_error {m1 m2 m3 : Mode} (h : operandsRRW s m1 m2 m3 = .error c) :
    ∀ i ∈ [Instr.add m1 m2 m3, .mul m1 m2 m3, .lt m1 m2 m3, .eq m1 m2 m3],
      exec i s = .next (faultedWith s c.cause c.detail) := by
  simp only [List.forall_mem_cons, List.not_mem_nil, false_imp_iff, implies_true, and_true]
  refine ⟨?_, ?_, ?_, ?_⟩ <;> exact settle_of_error hip (bind_eq_error.2 (.inl h))

theorem exec_of_operandsRR_error {m1 m2 n3 : Mode} (h : operandsRR s m1 m2 = .error c) :
    ∀ i ∈ [Instr.jt m1 m2 n3, .jf m1 m2 n3], exec i s = .next (faultedWith s c.cause c.detail) := by
  simp only [List.forall_mem_cons, List.not_mem_nil, false_imp_iff, implies_true, and_true]
  refine ⟨?_, ?_⟩ <;> exact settle_of_error hip (bind_eq_error.2 (.inl h))

theorem exec_arb_of_operandR_error {m1 n2 n3 : Mode} (h : operandR s m1 = .error c) :
    exec (.arb m1 n2 n3) s = .next (faultedWith s c.cause c.detail) :=
  settle_of_error hip (bind_eq_error.2 (.inl h))

theorem exec_out_of_operandR_error {m1 n2 n3 : Mode} (hout : s.hasOut = true) (h : operandR s m1 = .error c) :
    exec (.out m1 n2 n3) s = .next (faultedWith s c.cause c.detail) :=
  settle_of_error hip (bind_eq_error.2 (.inr ⟨(), hookCheck_eq_ok.2 hout, bind_eq_error.2 (.inl h)⟩))

theorem exec_inp_of_operandW_error {m1 n2 n3 : Mode} (hin : s.hasIn = true) (h : operandW s m1 = .error c) :
    exec (.inp m1 n2 n3) s = .next (faultedWith s c.cause c.detail) :=
  settle_of_error hip (bind_eq_error.2 (.inr ⟨(), hookCheck_eq_ok.2 hin, bind_eq_error.2 (.inl h)⟩))

/-- A missing hook decides before any parameter is read (the spec's D11). -/
theorem exec_inp_of_no_hook {m1 n2 n3 : Mode} (h : s.hasIn = false) :
    exec (.inp m1 n2 n3) s = .next (faultedWith s .missingInputHook .nothing) :=
  settle_of_error hip (bind_eq_error.2 (.inl (hookCheck_eq_error.2 ⟨h, rfl⟩)))

theorem exec_out_of_no_hook {m1 n2 n3 : Mode} (h : s.hasOut = false) :
    exec (.out m1 n2 n3) s = .next (faultedWith s .missingOutputHook .nothing) :=
  settle_of_error hip (bind_eq_error.2 (.inl (hookCheck_eq_error.2 ⟨h, rfl⟩)))

end

/-! ## A parameter word above `AMAX` (R231 row 8) -/

section
variable {s : State} {k : Nat} (h1 : 1 ≤ k) (hlow : ∀ j, j < k → isAddr s.cfg (s.ip + j) = true)
  (hk : isAddr s.cfg (s.ip + k) = false)

theorem paramWord_of_isAddr {j : Nat} (h : isAddr s.cfg (s.ip + j) = true) :
    paramWord s j = .ok (s.mem.read (s.ip + j)) :=
  paramWord_eq_ok.2 ⟨h, rfl⟩

include hk in
theorem paramWord_of_not_isAddr : paramWord s k = .error (.invalidAddress (s.ip + k) (.param k)) :=
  paramWord_eq_error.2 ⟨hk, rfl⟩

include h1 hlow hk

/-- The parameter words are fetched in ascending order, so the lowest that is out of reach decides. -/
theorem operandsRRW_of_param_error (m1 m2 m3 : Mode) (h3 : k ≤ 3) :
    operandsRRW s m1 m2 m3 = .error (.invalidAddress (s.ip + k) (.param k)) := by
  have hbad := paramWord_of_not_isAddr hk
  obtain rfl | rfl | rfl : k = 1 ∨ k = 2 ∨ k = 3 := by omega
  · exact bind_eq_error.2 (.inl hbad)
  · have e1 := paramWord_of_isAddr (hlow 1 (by decide))
    exact bind_eq_error.2 (.inr ⟨_, e1, bind_eq_error.2 (.inl hbad)⟩)
  · have e1 := paramWord_of_isAddr (hlow 1 (by decide))
    have e2 := paramWord_of_isAddr (hlow 2 (by decide))
    exact bind_eq_error.2 (.inr ⟨_, e1, bind_eq_error.2 (.inr ⟨_, e2, bind_eq_error.2 (.inl hbad)⟩)⟩)

theorem operandsRR_of_param_error (m1 m2 : Mode) (h2 : k ≤ 2) :
    operandsRR s m1 m2 = .error (.invalidAddress (s.ip + k) (.param k)) := by
  have hbad := paramWord_of_not_isAddr hk
  obtain rfl | rfl : k = 1 ∨ k = 2 := by omega
  · exact bind_eq_error.2 (.inl hbad)
  · have e1 := paramWord_of_isAddr (hlow 1 (by decide))
    exact bind_eq_error.2 (.inr ⟨_, e1, bind_eq_error.2 (.inl hbad)⟩)

omit hlow in
theorem operandR_of_param_error (m1 : Mode) (h : k ≤ 1) :
    operandR s m1 = .error (.invalidAddress (s.ip + k) (.param k)) := by
  obtain rfl : k = 1 := Nat.le_antisymm h h1
  exact bind_eq_error.2 (.inl (paramWord_of_not_isAddr hk))

omit hlow in
theorem operandW_of_param_error (m1 : Mode) (h : k ≤ 1) :
    operandW s m1 = .error (.invalidAddress (s.ip + k) (.param k)) := by
  obtain rfl : k = 1 := Nat.le_antisymm h h1
  exact bind_eq_error.2 (.inl (paramWord_of_not_isAddr hk))

end

/-- Settles O22: the parameter fetch of the instruction's format fails, and with it the instruction. -/
theorem parameterFetchFaults : Obligations.ParameterFetchFaults := by
  intro i s k h1 hcount hlow hk hin hout
  have hip : isAddr s.cfg s.ip = true := hlow 0 h1
  cases i with
  | add m1 m2 m3 =>
    exact exec_of_operandsRRW_error hip (operandsRRW_of_param_error h1 hlow hk m1 m2 m3 hcount) _ (by simp)
  | mul m1 m2 m3 =>
    exact exec_of_operandsRRW_error hip (operandsRRW_of_param_error h1 hlow hk m1 m2 m3 hcount) _ (by simp)
  | lt m1 m2 m3 =>
    exact exec_of_operandsRRW_error hip (operandsRRW_of_param_error h1 hlow hk m1 m2 m3 hcount) _ (by simp)
  | eq m1 m2 m3 =>
    exact exec_of_operandsRRW_error hip (operandsRRW_of_param_error h1 hlow hk m1 m2 m3 hcount) _ (by simp)
  | jt m1 m2 n3 =>
    exact exec_of_operandsRR_error (n3 := n3) hip (operandsRR_of_param_error h1 hlow hk m1 m2 hcount) _ (by simp)
  | jf m1 m2 n3 =>
    exact exec_of_operandsRR_error (n3 := n3) hip (operandsRR_of_param_error h1 hlow hk m1 m2 hcount) _ (by simp)
  | inp m1 n2 n3 => exact exec_inp_of_operandW_error hip (hin rfl) (operandW_of_param_error h1 hk m1 hcount)
  | out m1 n2 n3 => exact exec_out_of_operandR_error hip (hout rfl) (operandR_of_param_error h1 hk m1 hcount)
  | arb m1 n2 n3 => exact exec_arb_of_operandR_error hip (operandR_of_param_error h1 hk m1 hcount)
  | hlt n1 n2 n3 => exact absurd (Nat.le_trans h1 hcount) (Nat.not_succ_le_zero 0)

/-! ## An operand at an invalid address (R231 row 9) -/

theorem valOf_of_valueIs {s : State} {k : Nat} {m : Mode} {p v : Word} (hp : ParamIs s k p) (hv : ValueIs s k m v) :
    valOf s k m p = .ok v := by
  obtain ⟨q, hq, hv⟩ := param_then_val.2 hv
  rwa [hp.unique (paramWord_eq_ok.1 hq)]

theorem valOf_of_operandBad {s : State} {k : Nat} {m : Mode} {p : Word} {ea : Int} (hp : ParamIs s k p)
    (h : OperandBad s k m ea) : valOf s k m p = .error (.invalidAddress ea (.operand k)) := by
  obtain ⟨q, hq, hea, hbad⟩ := h
  exact valOf_bad (hp.unique hq ▸ hea) hbad

theorem dstOf_of_operandBad {s : State} {k : Nat} {m : Mode} {p : Word} {ea : Int} (hp : ParamIs s k p)
    (h : OperandBad s k m ea) : dstOf s k m p = .error (.invalidAddress ea (.operand k)) := by
  obtain ⟨q, hq, hea, hbad⟩ := h
  exact dstOf_bad (hp.unique hq ▸ hea) hbad

theorem operandR_of_operandBad {s : State} {m1 : Mode} {ea : Int} (h : OperandBad s 1 m1 ea) :
    operandR s m1 = .error (.invalidAddress ea (.operand 1)) := by
  obtain ⟨p, hp, -⟩ := id h
  exact bind_eq_error.2 (.inr ⟨p, paramWord_eq_ok.2 hp, valOf_of_operandBad hp h⟩)

theorem operandW_of_operandBad {s : State} {m1 : Mode} {ea : Int} (h : OperandBad s 1 m1 ea) :
    operandW s m1 = .error (.invalidAddress ea (.operand 1)) := by
  obtain ⟨p, hp, -⟩ := id h
  exact bind_eq_error.2 (.inr ⟨p, paramWord_eq_ok.2 hp, dstOf_of_operandBad hp h⟩)

/-- Once both parameter words are read the operands are what their resolution answers. -/
theorem operandsRR_of_params {s : State} {m1 m2 : Mode} {p1 p2 : Word} (h1 : ParamIs s 1 p1) (h2 : ParamIs s 2 p2) :
    operandsRR s m1 m2 = (do
      let a ← valOf s 1 m1 p1
      let t ← valOf s 2 m2 p2
      pure (a, t)) := by
  rw [operandsRR, paramWord_eq_ok.2 h1, paramWord_eq_ok.2 h2]
  rfl

theorem operandsRR_of_first_bad {s : State} {m1 m2 : Mode} {p2 : Word} {ea : Int} (h2 : ParamIs s 2 p2)
    (h : OperandBad s 1 m1 ea) : operandsRR s m1 m2 = .error (.invalidAddress ea (.operand 1)) := by
  obtain ⟨p1, h1, -⟩ := id h
  rw [operandsRR_of_params h1 h2]
  exact bind_eq_error.2 (.inl (valOf_of_operandBad h1 h))

theorem operandsRR_of_second_bad {s : State} {m1 m2 : Mode} {a : Word} {ea : Int} (ha : ValueIs s 1 m1 a)
    (h : OperandBad s 2 m2 ea) : operandsRR s m1 m2 = .error (.invalidAddress ea (.operand 2)) := by
  obtain ⟨p1, h1, -⟩ := id ha
  obtain ⟨p2, h2, -⟩ := id h
  rw [operandsRR_of_params h1 h2]
  exact bind_eq_error.2 (.inr ⟨a, valOf_of_valueIs h1 ha, bind_eq_error.2 (.inl (valOf_of_operandBad h2 h))⟩)

/-- Once the three parameter words are read the operands are what their resolution answers. -/
theorem operandsRRW_of_params {s : State} {m1 m2 m3 : Mode} {p1 p2 p3 : Word} (h1 : ParamIs s 1 p1)
    (h2 : ParamIs s 2 p2) (h3 : ParamIs s 3 p3) :
    operandsRRW s m1 m2 m3 = (do
      let a ← valOf s 1 m1 p1
      let b ← valOf s 2 m2 p2
      let d ← dstOf s 3 m3 p3
      pure (a, b, d)) := by
  rw [operandsRRW, paramWord_eq_ok.2 h1, paramWord_eq_ok.2 h2, paramWord_eq_ok.2 h3]
  rfl

/-- Settles O23: past the parameter fetch the operands are resolved in order, and the first failure is the
instruction's. -/
theorem firstInvalidOperandDecides : Obligations.FirstInvalidOperandDecides := by
  intro m1 m2 m3 s p1 p2 p3 ea h1 h2 h3 hip i hi
  have hops := operandsRRW_of_params (m1 := m1) (m2 := m2) (m3 := m3) h1 h2 h3
  refine ⟨fun hbad => ?_, fun a ha hbad => ?_, fun a b ha hb hbad => ?_⟩
  · have he : operandsRRW s m1 m2 m3 = .error (.invalidAddress ea (.operand 1)) :=
      hops.trans (bind_eq_error.2 (.inl (valOf_of_operandBad h1 hbad)))
    exact exec_of_operandsRRW_error hip he i hi
  · have he : operandsRRW s m1 m2 m3 = .error (.invalidAddress ea (.operand 2)) :=
      hops.trans (bind_eq_error.2 (.inr ⟨a, valOf_of_valueIs h1 ha,
        bind_eq_error.2 (.inl (valOf_of_operandBad h2 hbad))⟩))
    exact exec_of_operandsRRW_error hip he i hi
  · have he : operandsRRW s m1 m2 m3 = .error (.invalidAddress ea (.operand 3)) :=
      hops.trans (bind_eq_error.2 (.inr ⟨a, valOf_of_valueIs h1 ha,
        bind_eq_error.2 (.inr ⟨b, valOf_of_valueIs h2 hb, bind_eq_error.2 (.inl (dstOf_of_operandBad h3 hbad))⟩)⟩))
    exact exec_of_operandsRRW_error hip he i hi

/-- Settles O24: format by format, the operand that fails is the instruction's fault. -/
theorem invalidOperandFaults : Obligations.InvalidOperandFaults := by
  intro m1 m2 n2 n3 s p2 ea hip
  refine ⟨fun h2 i hi => ⟨fun hbad => ?_, fun a ha hbad => ?_⟩, fun hbad => ⟨?_, fun hin => ?_, fun hout => ?_⟩⟩
  · exact exec_of_operandsRR_error hip (operandsRR_of_first_bad h2 hbad) i hi
  · exact exec_of_operandsRR_error hip (operandsRR_of_second_bad ha hbad) i hi
  · exact exec_arb_of_operandR_error hip (operandR_of_operandBad hbad)
  · exact exec_inp_of_operandW_error hip hin (operandW_of_operandBad hbad)
  · exact exec_out_of_operandR_error hip hout (operandR_of_operandBad hbad)

/-! ## A result that is no word, a target that is no address -/

theorem storeResult_of_out_of_range {f : Int → Int → Int} {s : State} {m1 m2 m3 : Mode} {a b : Word} {d : Nat}
    (ha : ValueIs s 1 m1 a) (hb : ValueIs s 2 m2 b) (hd : DestIs s 3 m3 d) (hr : inRange s.cfg (f a b) = false) :
    storeResult f m1 m2 m3 s = .error (.valueOutOfRange (f a b)) :=
  bind_eq_error.2 (.inr ⟨(a, b, d), operandsRRW_eq_ok.2 ⟨ha, hb, hd⟩,
    bind_eq_error.2 (.inl (rangeCheck_eq_error.2 ⟨hr, rfl⟩))⟩)

/-- Settles O27: the range check fails after the operands have resolved. -/
theorem resultOutOfRangeFaults : Obligations.ResultOutOfRangeFaults := by
  intro m1 m2 m3 s a b d hip
  refine ⟨fun ha hb hd hr => ?_, fun ha hb hd hr => ?_, fun ha hr => ?_⟩
  · exact settle_of_error hip (storeResult_of_out_of_range (f := fun a b => a + b) ha hb hd hr)
  · exact settle_of_error hip (storeResult_of_out_of_range (f := fun a b => a * b) ha hb hd hr)
  · refine settle_of_error (c := .valueOutOfRange (s.rb + a)) hip (bind_eq_error.2 (.inr ⟨a, operandR_eq_ok.2 ha, ?_⟩))
    exact bind_eq_error.2 (.inl (rangeCheck_eq_error.2 ⟨hr, rfl⟩))

theorem jumpWhen_of_invalid_target {taken : Word → Bool} {s : State} {m1 m2 : Mode} {a t : Word}
    (ha : ValueIs s 1 m1 a) (ht : ValueIs s 2 m2 t) (htaken : taken a = true) (hbad : validAddr s.cfg t = none) :
    jumpWhen taken m1 m2 s = .error (.invalidAddress t .target) := by
  have hx : operandsRR s m1 m2 = .ok (a, t) := operandsRR_eq_ok.2 ⟨ha, ht⟩
  refine bind_eq_error.2 (.inr ⟨(a, t), hx, ?_⟩)
  simp only [htaken]
  exact bind_eq_error.2 (.inl (checkAddr_eq_error.2 ⟨hbad, rfl⟩))

/-- Settles O32: the target is checked in the jump itself, once it is taken. -/
theorem takenJumpToInvalidTargetFaults : Obligations.TakenJumpToInvalidTargetFaults := by
  intro m1 m2 n3 s a t hip ha ht hbad
  refine ⟨fun hz => ?_, fun hz => ?_⟩
  · exact settle_of_error hip (jumpWhen_of_invalid_target ha ht (by simpa [jumpTest] using hz) hbad)
  · exact settle_of_error hip (jumpWhen_of_invalid_target ha ht (by simpa [jumpTest] using hz) hbad)

end Sys2Proof.Machine
end

section
/-! SUPPORT. The engine state as its observations show it (48_host_interface.md R190, R202), and whose turn it is. -/
namespace Sys2Proof.Machine

theorem inReq_iff {s : State} : s.inReq = true ↔ ∃ d, s.st = .awaitingInput d := by
  unfold State.inReq
  cases s.st <;> simp

theorem pendVal_eq_some {s : State} {v : Word} : s.pendVal = some v ↔ s.st = .awaitingOutput v := by
  unfold State.pendVal
  cases s.st <;> simp

theorem outValid_iff {s : State} : s.outValid = true ↔ ∃ v, s.st = .awaitingOutput v := by
  simp only [State.outValid, Option.isSome_iff_exists, pendVal_eq_some]

theorem fr_eq_some {s : State} {fr : FaultRecord} : s.fr = some fr ↔ s.st = .faulted fr := by
  unfold State.fr
  cases s.st <;> simp

/-- A waiting engine is not running, and waits for one thing only. -/
theorem st_ne_running_of_waiting {s : State} (h : s.inReq = true ∨ s.outValid = true) : s.st ≠ .running := by
  rw [inReq_iff, outValid_iff] at h
  rcases h with ⟨d, h⟩ | ⟨v, h⟩ <;> simp [h]

theorem over_iff {s : State} : s.over = true ↔ s.st = .halted ∨ s.st = .cancelled ∨ ∃ fr, s.st = .faulted fr := by
  unfold State.over
  cases s.st <;> simp

theorem cancelNext_of_enginesTurn {s : State} (h : s.enginesTurn = true) : s.cancelNext = false := by
  unfold State.enginesTurn at h
  unfold State.cancelNext
  split at h <;> simp_all

/-- Only at the end of the list, or at a turn left to the engine, is the turn the engine's. -/
theorem host_of_enginesTurn {s : State} (h : s.enginesTurn = true) :
    s.host = [] ∨ ∃ es, s.host = .engineTurn :: es := by
  unfold State.enginesTurn at h
  split at h <;> simp_all

theorem cancelNext_of_host {s : State} {e : HostEvent} {es : List HostEvent} (h : s.host = e :: es) :
    s.cancelNext = decide (e = .cancel) := by
  rw [State.cancelNext, h]
  cases e <;> rfl

theorem resetNext_of_host_reset {s : State} {image : List Word} {hi ho : Bool} {es : List HostEvent}
    (h : s.host = .reset image hi ho :: es) : s.resetNext = true := by
  rw [State.resetNext, h]

end Sys2Proof.Machine
end

section
/-! SUPPORT. What the step answers, turn by turn (40_engine.md R110 to R113, R124): the converse of `step_cases`. -/
namespace Sys2Proof.Machine

/-! ## The engine's turn -/

theorem engineTurn_of_not_running {s : State} (h : s.st ≠ .running) : engineTurn s = .next s := by
  unfold engineTurn
  cases hst : s.st with
  | running => exact absurd hst h
  | _ => rfl

theorem boundaryStep_of_cancel {s : State} (h : s.cancel = true) : boundaryStep s = .next (s.setSt .cancelled) := by
  rw [boundaryStep, h]

theorem boundaryStep_of_fetchDecode_ok {s : State} {i : Instr} (hc : s.cancel = false) (hf : fetchDecode s = .ok i) :
    boundaryStep s = exec i s := by
  rw [boundaryStep, hc, hf]

theorem boundaryStep_answers (s : State) : ∃ t, boundaryStep s = .next t := by
  cases hc : s.cancel with
  | true => exact ⟨_, boundaryStep_of_cancel hc⟩
  | false =>
    cases hf : fetchDecode s with
    | ok i =>
      rw [boundaryStep_of_fetchDecode_ok hc hf]
      exact exec_answers i s
    | error c => exact ⟨_, boundaryStep_of_fetchDecode_error hc hf⟩

theorem engineTurn_answers (s : State) : ∃ t, engineTurn s = .next t := by
  by_cases hst : s.st = .running
  · rw [engineTurn_of_running hst]
    exact boundaryStep_answers s
  · exact ⟨s, engineTurn_of_not_running hst⟩

theorem step_of_running {s : State} (hst : s.st = .running) (ht : s.enginesTurn = true) :
    step s = boundaryStep s.turnUsed := by
  rw [step_of_enginesTurn ht]
  exact engineTurn_of_running (s := s.turnUsed) hst

theorem step_of_aboutToRun {s : State} {i : Instr} (h : s.AboutToRun i) : step s = exec i s.turnUsed := by
  obtain ⟨hst, hc, ht, ha, hd⟩ := h
  rw [step_of_running hst ht]
  exact boundaryStep_of_fetchDecode_ok (s := s.turnUsed) hc (fetchDecode_eq_ok.2 ⟨ha, hd⟩)

/-- The instruction the engine fetched and decoded is the one it was about to run. -/
theorem aboutToRun_of_fetchDecode {s : State} {i : Instr} (ht : s.enginesTurn = true) (hst : s.st = .running)
    (hc : s.cancel = false) (hf : fetchDecode s.turnUsed = .ok i) : s.AboutToRun i := by
  obtain ⟨ha, hd⟩ := fetchDecode_eq_ok.1 hf
  exact ⟨hst, hc, ht, ha, hd⟩

/-- Settles O11: past the cancel check, fetch and decode answer the instruction. -/
theorem stepRunsDecodedInstruction : Obligations.StepRunsDecodedInstruction :=
  fun _ _ h => step_of_aboutToRun h

/-- Settles O12: the cancel check comes before the fetch. -/
theorem cancelStopsBeforeFetch : Obligations.CancelStopsBeforeFetch := by
  intro s hst hc ht
  rw [step_of_running hst ht]
  exact boundaryStep_of_cancel (s := s.turnUsed) hc

theorem decode_of_neg {w : Word} (h : w < 0) : decode w = .error .unknownOpcode := by
  cases w with
  | ofNat n => exact absurd h (by simp)
  | negSucc n => rfl

/-- Settles O14: the fetch that fails records no raw word; a word that does not decode records its fault. -/
theorem illegalWordFaults : Obligations.IllegalWordFaults := by
  intro s hst hc ht
  refine ⟨fun ha => ?fetch, fun ha => ⟨fun hneg => ?_, fun hd => ?_, fun k d hd => ?_, fun k hd => ?_⟩⟩
  case fetch =>
    have hf : fetchDecode s.turnUsed = .error (.invalidAddress s.ip .fetch) := fetchDecode_eq_error.2 (.inl ⟨ha, rfl⟩)
    have hraw : rawWord s.turnUsed = none := by simp [rawWord, ha]
    rw [step_of_running hst ht, boundaryStep_of_fetchDecode_error (s := s.turnUsed) hc hf, raise, faultRecord, hraw]
    rfl
  · exact step_of_decode_error hst hc ht ha (decode_of_neg hneg)
  · exact step_of_decode_error hst hc ht ha hd
  · exact step_of_decode_error hst hc ht ha hd
  · exact step_of_decode_error hst hc ht ha hd

/-- Settles O15: every instruction ends in a next state, and so does every turn of the engine. -/
theorem engineAlwaysAnswers : Obligations.EngineAlwaysAnswers := by
  refine ⟨exec_answers, fun s ht => ?_⟩
  rw [step_of_enginesTurn ht]
  exact engineTurn_answers s.turnUsed

/-- Settles O34: the effect of `HLT`, and the step that runs it. -/
theorem hltHalts : Obligations.HltHalts :=
  fun _ _ _ _ => ⟨rfl, step_of_aboutToRun⟩

/-! ## The host's turns -/

theorem step_of_host {s : State} {e : HostEvent} {es : List HostEvent} (h : s.host = e :: es) :
    step s = hostTurn e (s.setHost es) := by
  unfold step transition
  rw [h]

theorem inputValue_of_awaiting {s : State} {d : Nat} {v : Word} (hst : s.st = .awaitingInput d)
    (hv : inRange s.cfg v = true) : inputValue v s = .next (completeInp d v s) := by
  rw [inputValue, hst]
  simp only [hv]

theorem outputAccept_of_awaiting {s : State} {v : Word} (hst : s.st = .awaitingOutput v) :
    outputAccept s = .next (completeOut v s) := by
  rw [outputAccept, hst]

theorem resetEvent_of_legal {s : State} {image : List Word} {hi ho : Bool} (h : legalImage s.cfg image = true) :
    resetEvent image hi ho s = .next (resetTo s.cfg image hi ho s.host) := by
  rw [resetEvent, h]

/-- Settles O36: the host's word completes the `IN` in progress. -/
theorem inputCompletes : Obligations.InputCompletes := by
  intro s d v es hst hh hv
  rw [step_of_host hh]
  exact inputValue_of_awaiting (s := s.setHost es) hst hv

/-- Settles O38: the acceptance completes the `OUT` in progress. -/
theorem outputCompletes : Obligations.OutputCompletes := by
  intro s v es hst hh
  rw [step_of_host hh]
  exact outputAccept_of_awaiting (s := s.setHost es) hst

/-- Settles O20: the state `Reset` leaves depends on the parameters, the image and the hooks alone. -/
theorem resetEstablishesInitialState : Obligations.ResetEstablishesInitialState := by
  intro s image hi ho es hh hlegal
  obtain ⟨-, -, hread⟩ := memoryReadsLastWritten
  refine ⟨resetTo s.cfg image hi ho es, ?_, rfl, rfl, rfl, rfl, rfl, rfl, rfl, rfl, rfl, hread image⟩
  rw [step_of_host hh]
  exact resetEvent_of_legal (s := s.setHost es) hlegal

/-- Settles O21: each is the value written at `State.reset`. -/
theorem resetStateValues : Obligations.ResetStateValues :=
  ⟨rfl, rfl, rfl, rfl, Memory.read_nil⟩

/-! ## Refusals (93_implementation_defined.md V8, V9) -/

theorem engineTurn_not_refused (s : State) (r : Refusal) : engineTurn s ≠ .refused r := by
  obtain ⟨t, ht⟩ := engineTurn_answers s
  simp [ht]

theorem inputValue_eq_refused {v : Word} {s : State} {r : Refusal} :
    inputValue v s = .refused r ↔
      (s.inReq = false ∧ r = .unsolicitedInput) ∨
        (s.inReq = true ∧ inRange s.cfg v = false ∧ r = .inputOutOfRange) := by
  unfold inputValue State.inReq
  cases s.st with
  | awaitingInput d => cases inRange s.cfg v <;> simp [eq_comm]
  | _ => simpa using eq_comm

theorem outputAccept_eq_refused {s : State} {r : Refusal} :
    outputAccept s = .refused r ↔ s.outValid = false ∧ r = .unsolicitedAccept := by
  unfold outputAccept State.outValid State.pendVal
  cases s.st with
  | awaitingOutput v => simp
  | _ => simpa using eq_comm

theorem resetEvent_eq_refused {image : List Word} {hi ho : Bool} {s : State} {r : Refusal} :
    resetEvent image hi ho s = .refused r ↔ legalImage s.cfg image = false ∧ r = .illegalImage := by
  unfold resetEvent
  cases legalImage s.cfg image <;> simp [eq_comm]

/-- Settles O16: the engine's turn and `Cancel` are never refused; each other event has its own duties. -/
theorem onlyHostBreachesRefused : Obligations.OnlyHostBreachesRefused := by
  intro s r
  cases hh : s.host with
  | nil =>
    have ht : s.enginesTurn = true := by rw [State.enginesTurn, hh]
    rw [step_of_enginesTurn ht]
    simp [engineTurn_not_refused]
  | cons e es =>
    rw [step_of_host hh]
    cases e with
    | engineTurn => simp [hostTurn, engineTurn_not_refused]
    | inputValue v => simp [hostTurn, inputValue_eq_refused, State.inReq]
    | outputAccept => simp [hostTurn, outputAccept_eq_refused, State.outValid, State.pendVal]
    | cancel => simp [hostTurn, cancelEvent]
    | reset image hi ho =>
      rw [hostTurn, resetEvent_eq_refused]
      constructor
      · rintro ⟨hl, rfl⟩
        exact ⟨_, _, rfl, .inr (.inr (.inr ⟨image, hi, ho, rfl, hl, rfl⟩))⟩
      · rintro ⟨_, _, ⟨⟩, ⟨_, ⟨⟩, _⟩ | ⟨_, ⟨⟩, _⟩ | ⟨⟨⟩, _⟩ | ⟨_, _, _, ⟨⟩, hl, hr⟩⟩
        exact ⟨hl, hr⟩

/-! ## Peek, and several machines side by side -/

/-- Settles O51: `Peek` checks the address, then reads. -/
theorem peekReadsMemory : Obligations.PeekReadsMemory := by
  intro s a
  refine ⟨fun n hn => ?_, fun hn => ?_⟩
  · rw [State.peek, hn]
  · rw [State.peek, hn]

/-- A transition of the list at `k` is a step of the state there, put back in its place. -/
theorem stepAt_eq_next {sys sys' : Instances} {k : Nat} :
    sys.stepAt k = .next sys' ↔ ∃ s t, sys[k]? = some s ∧ step s = .next t ∧ sys' = sys.set k t := by
  unfold Instances.stepAt
  cases sys[k]? with
  | none => simp
  | some s => cases hs : step s <;> simp [hs, eq_comm]

/-- Settles O52: the list is changed in place `k` alone. -/
theorem instancesShareNothing : Obligations.InstancesShareNothing := by
  intro sys sys' k h
  obtain ⟨s, t, hk, hst, rfl⟩ := stepAt_eq_next.1 h
  obtain ⟨hlt, -⟩ := List.getElem?_eq_some_iff.1 hk
  exact ⟨List.length_set, fun j hj => List.getElem?_set_ne hj.symm, s, t, hk, hst, List.getElem?_set_self hlt⟩

end Sys2Proof.Machine
end

section
/-! SUPPORT. What an instruction's effect changes and what it leaves (41 to 46), read off the effects once. -/
namespace Sys2Proof.Machine

/-- No effect touches the parameters, the latch, the hook bits, the output stream or the host's list. -/
theorem Effect.frame {i : Instr} {s t : State} (h : Effect s i t) :
    t.cfg = s.cfg ∧ t.cancel = s.cancel ∧ t.hasIn = s.hasIn ∧ t.hasOut = s.hasOut ∧ t.outs = s.outs ∧
      t.host = s.host := by
  cases h <;> exact ⟨rfl, rfl, rfl, rfl, rfl, rfl⟩

/-- The engine state after an effect, by the instruction. -/
theorem Effect.st_cases {i : Instr} {s t : State} (h : Effect s i t) :
    (t.st = s.st ∧ i.opcode ∈ [1, 2, 5, 6, 7, 8, 9]) ∨
    (∃ m1 m2 m3 d, i = .inp m1 m2 m3 ∧ t = s.setSt (.awaitingInput d)) ∨
    (∃ m1 m2 m3 v, i = .out m1 m2 m3 ∧ ValueIs s 1 m1 v ∧ t = s.setSt (.awaitingOutput v)) ∨
    ∃ m1 m2 m3, i = .hlt m1 m2 m3 ∧ t = s.setSt .halted := by
  cases h with
  | inp _ _ => exact .inr (.inl ⟨_, _, _, _, rfl, rfl⟩)
  | out _ hv => exact .inr (.inr (.inl ⟨_, _, _, _, rfl, hv, rfl⟩))
  | hlt => exact .inr (.inr (.inr ⟨_, _, _, rfl, rfl⟩))
  | _ => exact .inl ⟨rfl, by simp [Instr.opcode]⟩

/-- Memory after an effect: one write at the destination of the third operand, or as it was. -/
theorem Effect.mem_cases {i : Instr} {s t : State} (h : Effect s i t) :
    (i.opcode ∈ [1, 2, 7, 8] ∧ ∃ d v, DestIs s 3 i.modes.2.2 d ∧ t.mem = s.mem.write d v) ∨
    (i.opcode ∉ [1, 2, 7, 8] ∧ t.mem = s.mem) := by
  cases h with
  | add _ _ hd _ => exact .inl ⟨by simp [Instr.opcode], _, _, hd, rfl⟩
  | mul _ _ hd _ => exact .inl ⟨by simp [Instr.opcode], _, _, hd, rfl⟩
  | lt _ _ hd => exact .inl ⟨by simp [Instr.opcode], _, _, hd, rfl⟩
  | eq _ _ hd => exact .inl ⟨by simp [Instr.opcode], _, _, hd, rfl⟩
  | _ => exact .inr ⟨by simp [Instr.opcode], rfl⟩

theorem Effect.rb_cases {i : Instr} {s t : State} (h : Effect s i t) :
    (∃ m1 m2 m3, i = .arb m1 m2 m3) ∨ t.rb = s.rb := by
  cases h with
  | arb _ _ => exact .inl ⟨_, _, _, rfl⟩
  | _ => exact .inr rfl

/-- Where `ip` goes, by the instruction (40_engine.md R120). -/
theorem Effect.ip_cases {i : Instr} {s t : State} (h : Effect s i t) :
    (i.opcode ∈ [3, 4, 99] ∧ t.ip = s.ip) ∨
    (i.opcode ∈ [1, 2, 7, 8, 9] ∧ t.ip = s.ip + i.length) ∨
    (i.opcode ∈ [5, 6] ∧ ∃ a v, ValueIs s 1 i.modes.1 a ∧ ValueIs s 2 i.modes.2.1 v ∧
      if (i.opcode = 5 ∧ a ≠ 0) ∨ (i.opcode = 6 ∧ a = 0) then validAddr s.cfg v = some t.ip
      else t.ip = s.ip + i.length) := by
  cases h with
  | inp _ _ => exact .inl ⟨by simp [Instr.opcode], rfl⟩
  | out _ _ => exact .inl ⟨by simp [Instr.opcode], rfl⟩
  | hlt => exact .inl ⟨by simp [Instr.opcode], rfl⟩
  | jtTaken ha hv hz hn =>
    exact .inr (.inr ⟨by simp [Instr.opcode], _, _, ha, hv, by simp [Instr.opcode, hz, hn]⟩)
  | jtPassed ha hv hz =>
    exact .inr (.inr ⟨by simp [Instr.opcode], _, _, ha, hv, by simp [Instr.opcode, hz, Instr.length, Instr.paramCount]⟩)
  | jfTaken ha hv hz hn =>
    exact .inr (.inr ⟨by simp [Instr.opcode], _, _, ha, hv, by simp [Instr.opcode, hz, hn]⟩)
  | jfPassed ha hv hz =>
    exact .inr (.inr ⟨by simp [Instr.opcode], _, _, ha, hv, by simp [Instr.opcode, hz, Instr.length, Instr.paramCount]⟩)
  | _ => exact .inr (.inl ⟨by simp [Instr.opcode], rfl⟩)

/-- The frame of `exec`, fault or not. -/
theorem exec_frame {i : Instr} {s t : State} (h : exec i s = .next t) :
    t.cfg = s.cfg ∧ t.cancel = s.cancel ∧ t.hasIn = s.hasIn ∧ t.hasOut = s.hasOut ∧ t.outs = s.outs ∧
      t.host = s.host := by
  rcases exec_cases h with h | ⟨c, -, rfl⟩
  · exact h.frame
  · exact ⟨rfl, rfl, rfl, rfl, rfl, rfl⟩

/-- Settles O40: the frame of the effects, and the one write at the destination; a fault changes `st` alone. -/
theorem storingFrame : Obligations.StoringFrame := by
  intro m1 m2 m3 s t i hi h
  obtain ⟨hcfg, hcancel, hin, hout, houts, hhost⟩ := exec_frame h
  have hops : i.modes.2.2 = m3 ∧ i.opcode ∈ [1, 2, 7, 8] := by
    simp only [List.mem_cons, List.not_mem_nil, or_false] at hi
    rcases hi with rfl | rfl | rfl | rfl <;> simp [Instr.modes, Instr.opcode]
  obtain ⟨rfl, hop⟩ := hops
  rcases exec_cases h with he | ⟨c, -, rfl⟩
  · have hrb : t.rb = s.rb := he.rb_cases.resolve_left fun ⟨_, _, _, e⟩ => by subst e; simp [Instr.opcode] at hop
    have hst : t.st = s.st := by
      rcases he.st_cases with ⟨hst, -⟩ | ⟨_, _, _, _, rfl, -⟩ | ⟨_, _, _, _, rfl, -⟩ | ⟨_, _, _, rfl, -⟩
      · exact hst
      all_goals simp [Instr.opcode] at hop
    refine ⟨hrb, hcancel, hin, hout, houts, hcfg, hhost, .inl hst, fun a ha => ?_⟩
    rcases he.mem_cases with ⟨-, d, v, hd, hmem⟩ | ⟨-, hmem⟩
    · rw [hmem, Memory.read_write_of_ne _ _ (ha d hd)]
    · rw [hmem]
  · exact ⟨rfl, hcancel, hin, hout, houts, hcfg, hhost, .inr rfl, fun _ _ => rfl⟩

/-- Settles O41: the effects of the instructions that do not store; a fault changes `st` alone. -/
theorem nonStoringFrame : Obligations.NonStoringFrame := by
  intro m1 m2 m3 s t i hi h
  obtain ⟨hcfg, hcancel, hin, hout, houts, hhost⟩ := exec_frame h
  have hop : i.opcode ∈ [3, 4, 5, 6, 9, 99] := by
    simp only [List.mem_cons, List.not_mem_nil, or_false] at hi
    rcases hi with rfl | rfl | rfl | rfl | rfl | rfl <;> simp [Instr.opcode]
  rcases exec_cases h with he | ⟨c, -, rfl⟩
  · have hmem : t.mem = s.mem := by
      rcases he.mem_cases with ⟨hstore, -⟩ | ⟨-, hmem⟩
      · simp only [List.mem_cons, List.not_mem_nil, or_false] at hop hstore
        omega
      · exact hmem
    refine ⟨hmem, hcancel, hin, hout, houts, hcfg, hhost, fun h9 => ?rb, fun hjump => ?ip, ?st⟩
    case rb => exact he.rb_cases.resolve_left fun ⟨_, _, _, e⟩ => h9 (by rw [e]; rfl)
    case ip =>
      rcases he.ip_cases with ⟨-, hip⟩ | ⟨hadv, -⟩ | ⟨hj, -⟩
      · exact hip
      · simp only [List.mem_cons, List.not_mem_nil, or_false] at hop hjump hadv
        omega
      · simp only [List.mem_cons, List.not_mem_nil, or_false] at hjump hj
        omega
    case st =>
      rcases he.st_cases with ⟨hst, -⟩ | ⟨_, _, _, _, rfl, rfl⟩ | ⟨_, _, _, _, rfl, -, rfl⟩ | ⟨_, _, _, rfl, rfl⟩
      · exact .inl hst
      · exact .inr (.inr (.inl ⟨rfl, rfl⟩))
      · exact .inr (.inr (.inr (.inl ⟨rfl, rfl⟩)))
      · exact .inr (.inr (.inr (.inr ⟨rfl, rfl⟩)))
  · exact ⟨rfl, hcancel, hin, hout, houts, hcfg, hhost, fun _ => rfl, fun _ => rfl, .inr (.inl rfl)⟩

/-- The engine is still running after the effect of seven instructions, and of no other. -/
theorem Effect.running_iff {i : Instr} {s t : State} (h : Effect s i t) (hst : s.st = .running) :
    t.st = .running ↔ i.opcode ∉ [3, 4, 99] := by
  rcases h.st_cases with ⟨e, hop⟩ | ⟨_, _, _, _, rfl, rfl⟩ | ⟨_, _, _, _, rfl, -, rfl⟩ | ⟨_, _, _, rfl, rfl⟩
  · simp only [List.mem_cons, List.not_mem_nil, or_false] at hop ⊢
    exact iff_of_true (e.trans hst) (by omega)
  all_goals simp [Instr.opcode]

/-- Settles O42: where the effect of the instruction puts `ip`; a fault leaves it. -/
theorem instructionPointerMoves : Obligations.InstructionPointerMoves := by
  intro i s t hst h
  rcases exec_cases h with he | ⟨c, -, rfl⟩
  · rw [ne_eq, he.running_iff hst, not_not]
    rcases he.ip_cases with ⟨hop, hip⟩ | ⟨hop, hip⟩ | ⟨hop, hjump⟩
    · exact ⟨fun _ => hip, fun hn => absurd hop hn, fun hn => absurd hop hn⟩
    · simp only [List.mem_cons, List.not_mem_nil, or_false] at hop ⊢
      exact ⟨fun _ => by omega, fun _ _ => hip, fun _ _ => by omega⟩
    · simp only [List.mem_cons, List.not_mem_nil, or_false] at hop ⊢
      exact ⟨fun _ => by omega, fun _ _ => by omega, fun _ _ => hjump⟩
  · exact ⟨fun _ => rfl, fun hn => by simp at hn, fun hn => by simp at hn⟩

end Sys2Proof.Machine
end

section
/-! SUPPORT. What a step of the whole machine can change, turn by turn (40_engine.md R124; 10_state.md section 4). -/
namespace Sys2Proof.Machine

/-! ## Waiting and terminal states -/

theorem turnUsed_with_cancel_of_false {s : State} (h : s.cancelNext = false) :
    s.turnUsed = { s.turnUsed with cancel := s.cancel || s.cancelNext } := by
  rw [h, Bool.or_false]
  rfl

/-- An engine that is not running answers its own turns by the same state. -/
theorem EngineTurn.eq_of_not_running {s t : State} (h : EngineTurn s t) (hst : s.st ≠ .running) : t = s := by
  cases h with
  | idle _ => rfl
  | cancelled hr _ => exact absurd hr hst
  | fetchFault hr _ _ => exact absurd hr hst
  | effect hr _ _ _ => exact absurd hr hst
  | raised hr _ _ _ => exact absurd hr hst

/-- While the engine does not run, the next transition is a `Reset`, the completion of what it waits for, or changes
the latch at most. -/
theorem step_cases_of_not_running {s t : State} (hst : s.st ≠ .running) (h : step s = .next t) :
    s.resetNext = true ∨
    (∃ d v es, s.st = .awaitingInput d ∧ s.host = .inputValue v :: es) ∨
    (∃ v es, s.st = .awaitingOutput v ∧ s.host = .outputAccept :: es) ∨
    t = { s.turnUsed with cancel := s.cancel || s.cancelNext } := by
  cases step_cases h with
  | engine ht he =>
    rw [he.eq_of_not_running (s := s.turnUsed) hst]
    exact .inr (.inr (.inr (turnUsed_with_cancel_of_false (cancelNext_of_enginesTurn ht))))
  | input hh hw _ => exact .inr (.inl ⟨_, _, _, hw, hh⟩)
  | accept hh hw => exact .inr (.inr (.inl ⟨_, _, hw, hh⟩))
  | cancel hh =>
    rw [cancelNext_of_host hh, decide_eq_true rfl, Bool.or_true]
    exact .inr (.inr (.inr rfl))
  | reset hh _ => exact .inl (resetNext_of_host_reset hh)

/-- Settles O18: a waiting engine does not run, and completes what it waits for only. -/
theorem waitStatesSurvive : Obligations.WaitStatesSurvive := by
  intro s t hw h
  rcases step_cases_of_not_running (st_ne_running_of_waiting hw) h with
    hr | ⟨d, v, es, hst, hh⟩ | ⟨v, es, hst, hh⟩ | ht
  · exact .inl hr
  · exact .inr (.inl ⟨inReq_iff.2 ⟨d, hst⟩, v, es, hh⟩)
  · exact .inr (.inr (.inl ⟨outValid_iff.2 ⟨v, hst⟩, es, hh⟩))
  · exact .inr (.inr (.inr ht))

/-- Settles O19: an engine whose run is over neither runs nor waits. -/
theorem terminalStatesAbsorb : Obligations.TerminalStatesAbsorb := by
  intro s t ho h hr
  rw [over_iff] at ho
  have hst : s.st ≠ .running := by rcases ho with h | h | ⟨fr, h⟩ <;> simp [h]
  rcases step_cases_of_not_running hst h with h | ⟨d, v, es, hw, -⟩ | ⟨v, es, hw, -⟩ | ht
  · simp [h] at hr
  · simp [hw] at ho
  · simp [hw] at ho
  · exact ht

/-! ## Fault records (60_exceptions.md R220) -/

/-- A condition that was raised records a detail of its own kind. -/
theorem recordOk_of_raised {s : State} {c : Condition} (h : Raised s c) : recordOk s.cfg (faultRecord c s) := by
  cases h with
  | missingInputHook _ => rfl
  | missingOutputHook _ => rfl
  | invalidAddress a acc ha => exact ⟨a, acc, rfl, ha⟩
  | immediateWrite k hk => exact hk.imp (congrArg Detail.parameter) (congrArg Detail.parameter)
  | valueOutOfRange r hr => exact ⟨r, rfl, hr⟩

/-- So does a word that was not fetched or not decoded. -/
theorem recordOk_of_fetchDecode_error {s : State} {c : Condition} (h : fetchDecode s = .error c) :
    recordOk s.cfg (faultRecord c s) := by
  rcases fetchDecode_eq_error.1 h with ⟨ha, rfl⟩ | ⟨-, e, hd, rfl⟩
  · exact ⟨s.ip, .fetch, rfl, by simp [ha]⟩
  · rcases decode_fault_detail hd with rfl | rfl | ⟨k, d, rfl, hk⟩ | ⟨k, rfl, hk⟩
    · rfl
    · rfl
    · exact ⟨k, d, rfl, hk⟩
    · exact hk.imp (congrArg Detail.parameter) (congrArg Detail.parameter)

/-! ## The engine's turn -/

/-- What the engine's turn can do: nothing where it does not run; else stop at the latch, give the instruction about to
run its effect, or enter a fault. -/
inductive TurnCase (s : State) : State → Prop where
  | idle : s.st ≠ .running → TurnCase s s.turnUsed
  | cancelled : s.st = .running → s.cancel = true → TurnCase s (s.turnUsed.setSt .cancelled)
  | effect {i : Instr} {t : State} : s.AboutToRun i → Effect s.turnUsed i t → TurnCase s t
  | fault {c : Condition} : s.st = .running → s.cancel = false → recordOk s.cfg (faultRecord c s.turnUsed) →
      TurnCase s (raise c s.turnUsed)

theorem turn_cases {s t : State} (ht : s.enginesTurn = true) (h : EngineTurn s.turnUsed t) : TurnCase s t := by
  cases h with
  | idle hst => exact .idle hst
  | cancelled hst hc => exact .cancelled hst hc
  | fetchFault hst hc hf => exact .fault hst hc (recordOk_of_fetchDecode_error (s := s.turnUsed) hf)
  | effect hst hc hf he => exact .effect (aboutToRun_of_fetchDecode ht hst hc hf) he
  | raised hst hc _ hr => exact .fault hst hc (recordOk_of_raised (s := s.turnUsed) hr)

theorem step_turn_cases {s t : State} (ht : s.enginesTurn = true) (h : step s = .next t) : TurnCase s t :=
  turn_cases ht (engineTurn_cases ((step_of_enginesTurn ht).symm.trans h))

/-- Settles O17: of a running engine's turns, by the engine state each leaves. -/
theorem runningTurnOutcomes : Obligations.RunningTurnOutcomes := by
  intro s t hst ht h
  rw [inReq_iff, outValid_iff]
  cases step_turn_cases ht h with
  | idle hn => exact absurd hst hn
  | cancelled _ hc => simp [hc]
  | fault _ hc _ => simp [hc]
  | effect hi he =>
    obtain ⟨-, hc, -⟩ := id hi
    rcases he.st_cases with ⟨e, hop⟩ | ⟨m1, m2, m3, d, rfl, rfl⟩ | ⟨m1, m2, m3, v, rfl, -, rfl⟩ | ⟨m1, m2, m3, rfl, rfl⟩
    · rw [e, State.turnUsed_st, hst]
      simp only [hc]
      exact ⟨by simp, by simp, by simp, by simp, fun _ => ⟨_, hi, hop⟩⟩
    · exact ⟨by simp [hc], by simp, fun _ => ⟨m1, m2, m3, hi⟩, by simp, by simp⟩
    · exact ⟨by simp [hc], by simp, by simp, fun _ => ⟨m1, m2, m3, hi⟩, by simp⟩
    · exact ⟨by simp [hc], fun _ => ⟨m1, m2, m3, hi⟩, by simp, by simp, by simp⟩

/-- No effect ends in `Faulted`. -/
theorem Effect.st_ne_faulted {i : Instr} {s t : State} {fr : FaultRecord} (h : Effect s i t) (hst : s.st = .running) :
    t.st ≠ .faulted fr := by
  rcases h.st_cases with ⟨e, -⟩ | ⟨_, _, _, _, -, rfl⟩ | ⟨_, _, _, _, -, -, rfl⟩ | ⟨_, _, _, -, rfl⟩
  · simp [e, hst]
  all_goals simp

/-- Settles O43: of the engine's turns only a fault leaves `Faulted`, and it is the entry of its condition. -/
theorem faultEntry : Obligations.FaultEntry := by
  intro s t hst ht h fr hfr
  cases step_turn_cases ht h with
  | idle hn => exact absurd hst hn
  | cancelled _ _ => simp at hfr
  | effect _ he => exact absurd hfr (he.st_ne_faulted hst)
  | fault _ _ hok =>
    obtain rfl : faultRecord _ s.turnUsed = fr := EngineState.faulted.inj hfr
    refine ⟨rfl, rfl, ?_, hok⟩
    simp only [faultRecord, rawWord, State.turnUsed_cfg, State.turnUsed_ip, State.turnUsed_mem]
    cases isAddr s.cfg s.ip <;> rfl

/-! ## Frames of the step -/

/-- The engine's turn uses up its place in the host's list and touches neither the parameters nor the latch, the hook
bits or the output stream. -/
theorem TurnCase.frame {s t : State} (h : TurnCase s t) :
    t.cfg = s.cfg ∧ t.cancel = s.cancel ∧ t.hasIn = s.hasIn ∧ t.hasOut = s.hasOut ∧ t.outs = s.outs ∧
      t.host = s.host.tail := by
  cases h with
  | effect _ he => exact he.frame
  | _ => exact ⟨rfl, rfl, rfl, rfl, rfl, rfl⟩

theorem resetEvent_eq_next {image : List Word} {hi ho : Bool} {s t : State} :
    resetEvent image hi ho s = .next t ↔ legalImage s.cfg image = true ∧ t = resetTo s.cfg image hi ho s.host := by
  unfold resetEvent
  cases legalImage s.cfg image <;> simp [eq_comm]

/-- Settles O39: only `Reset` sets the hook bits; `exec` keeps them and checks them first. -/
theorem hookBits : Obligations.HookBits := by
  refine ⟨fun s t h => ⟨fun hr => ?keep, fun image hi ho es hh => ?set⟩, fun i s t h => ?exec, ?missing⟩
  case keep =>
    cases step_cases h with
    | engine ht he =>
      obtain ⟨-, -, hin, hout, -⟩ := (turn_cases ht he).frame
      exact ⟨hin, hout⟩
    | reset hh _ => simp [resetNext_of_host_reset hh] at hr
    | _ => exact ⟨rfl, rfl⟩
  case set =>
    rw [step_of_host hh] at h
    obtain ⟨-, rfl⟩ := resetEvent_eq_next.1 h
    exact ⟨rfl, rfl⟩
  case exec =>
    obtain ⟨-, -, hin, hout, -⟩ := exec_frame h
    exact ⟨hin, hout⟩
  case missing => exact fun m1 n2 n3 s hip => ⟨exec_inp_of_no_hook hip, exec_out_of_no_hook hip⟩

/-- Settles O44: of the engine's turns only the effect of `ARB` changes `rb`, of the host's events only `Reset`. -/
theorem onlyArbWritesRelativeBase : Obligations.OnlyArbWritesRelativeBase := by
  intro s t h hne
  cases step_cases h with
  | engine ht he =>
    cases turn_cases ht he with
    | effect hi he =>
      rcases he.rb_cases with ⟨m1, m2, m3, rfl⟩ | hrb
      · exact .inr ⟨m1, m2, m3, hi⟩
      · exact absurd hrb hne
    | _ => exact absurd rfl hne
  | reset hh _ => exact .inl (resetNext_of_host_reset hh)
  | _ => exact absurd rfl hne

/-- Settles O45: of the engine's turns only the effect of a storing instruction writes, of the host's events only the
awaited input. -/
theorem oneCellWrittenByItsInstruction : Obligations.OneCellWrittenByItsInstruction := by
  intro s t h hr
  cases step_cases h with
  | engine ht he =>
    cases turn_cases ht he with
    | effect hi he =>
      rcases he.mem_cases with ⟨hop, d, v, hd, hmem⟩ | ⟨-, hmem⟩
      · exact .inr (.inl ⟨_, d, v, hi, hd, hop, hmem⟩)
      · exact .inl hmem
    | _ => exact .inl rfl
  | input hh hst _ => exact .inr (.inr ⟨_, _, _, hst, hh, rfl⟩)
  | reset hh _ => simp [resetNext_of_host_reset hh] at hr
  | _ => exact .inl rfl

/-- Settles O46: `Cancel` sets the latch, `Reset` clears it, and every other transition keeps it. -/
theorem cancelIsALatch : Obligations.CancelIsALatch := by
  intro s t h hr
  cases step_cases h with
  | engine ht he =>
    obtain ⟨-, hc, -⟩ := (turn_cases ht he).frame
    rw [hc, cancelNext_of_enginesTurn ht, Bool.or_false]
  | input hh _ _ => simp [completeInp, cancelNext_of_host hh]
  | accept hh _ => simp [completeOut, cancelNext_of_host hh]
  | cancel hh => simp [cancelNext_of_host hh]
  | reset hh _ => simp [resetNext_of_host_reset hh] at hr

/-- Settles O47: `OutputAccept` completes what is presented; the engine's turns and the other events keep the stream. -/
theorem outputStreamGrowsByAccept : Obligations.OutputStreamGrowsByAccept := by
  intro s t h hr
  cases step_cases h with
  | engine ht he =>
    obtain ⟨-, -, -, -, houts, -⟩ := (turn_cases ht he).frame
    refine ⟨fun es hh => ?_, fun _ => houts⟩
    rcases host_of_enginesTurn ht with e | ⟨_, e⟩ <;> simp [hh] at e
  | input hh _ _ => exact ⟨fun es e => by simp [hh] at e, fun _ => rfl⟩
  | accept hh hst => exact ⟨fun es _ => ⟨_, pendVal_eq_some.2 hst, rfl⟩, fun hn => absurd hh (hn _)⟩
  | cancel hh => exact ⟨fun es e => by simp [hh] at e, fun _ => rfl⟩
  | reset hh _ => simp [resetNext_of_host_reset hh] at hr

/-! ## Values offered (48_host_interface.md R200) -/

theorem offered_of_awaitingOutput {s : State} {v : Word} (h : s.st = .awaitingOutput v) :
    s.offered = s.outs ++ [v] := by
  rw [State.offered, pendVal_eq_some.2 h, Option.toList_some]

theorem offered_of_not_awaitingOutput {s : State} (h : ∀ v, s.st ≠ .awaitingOutput v) : s.offered = s.outs := by
  have hp : s.pendVal = none := Option.eq_none_iff_forall_ne_some.2 fun v hv => h v (pendVal_eq_some.1 hv)
  rw [State.offered, hp, Option.toList_none, List.append_nil]

theorem offered_of_running {s : State} (h : s.st = .running) : s.offered = s.outs :=
  offered_of_not_awaitingOutput fun v => by simp [h]

/-- An effect offers the value of the operand of `OUT`, and nothing else is offered anew. -/
theorem Effect.offered_cases {i : Instr} {s t : State} (h : Effect s i t) (hst : s.st = .running) :
    t.offered = s.offered ∨
      ∃ m1 m2 m3 v, i = .out m1 m2 m3 ∧ ValueIs s 1 m1 v ∧ t.offered = s.offered ++ [v] := by
  obtain ⟨-, -, -, -, houts, -⟩ := h.frame
  rw [offered_of_running hst, ← houts]
  rcases h.st_cases with ⟨e, -⟩ | ⟨_, _, _, _, -, rfl⟩ | ⟨m1, m2, m3, v, rfl, hv, rfl⟩ | ⟨_, _, _, -, rfl⟩
  · exact .inl (offered_of_running (e.trans hst))
  · exact .inl (offered_of_not_awaitingOutput (by simp))
  · exact .inr ⟨m1, m2, m3, v, rfl, hv, offered_of_awaitingOutput rfl⟩
  · exact .inl (offered_of_not_awaitingOutput (by simp))

/-- Settles O48: acceptance moves the presented value into the stream, so only the effect of an `OUT` adds to what is
offered. -/
theorem valueOfferedOnlyByOut : Obligations.ValueOfferedOnlyByOut := by
  intro s t h hr hne
  cases step_cases h with
  | engine ht he =>
    cases turn_cases ht he with
    | idle _ => exact absurd rfl hne
    | cancelled hst _ =>
      refine absurd ?_ hne
      rw [offered_of_running hst]
      exact offered_of_not_awaitingOutput (by simp)
    | effect hi he =>
      obtain ⟨hst, -⟩ := id hi
      rcases he.offered_cases hst with e | ⟨m1, m2, m3, v, rfl, hv, e⟩
      · exact absurd e hne
      · exact ⟨m1, m2, m3, v, hi, hv, e⟩
    | fault hst _ _ =>
      refine absurd ?_ hne
      rw [offered_of_running hst]
      exact offered_of_not_awaitingOutput (by simp)
  | input _ hst _ =>
    refine absurd ?_ hne
    rw [offered_of_not_awaitingOutput (s := s) (by simp [hst])]
    exact offered_of_running rfl
  | accept _ hst =>
    refine absurd ?_ hne
    rw [offered_of_awaitingOutput hst]
    exact offered_of_running rfl
  | cancel _ => exact absurd rfl hne
  | reset hh _ => simp [resetNext_of_host_reset hh] at hr

end Sys2Proof.Machine
end

section
/-! SUPPORT. The invariant `State.Inv`: it holds after reset and every transition keeps it. -/
namespace Sys2Proof.Machine

/-! ## Words and addresses -/

theorem isAddr_of_validAddr {c : Config} {a : Int} {n : Nat} (h : validAddr c a = some n) : isAddr c n = true :=
  (validAddr_eq_some.1 h).2

theorem DestIs.isAddr {s : State} {k : Nat} {m : Mode} {d : Nat} (h : DestIs s k m d) :
    isAddr s.cfg d = true := by
  obtain ⟨_, _, _, _, hd⟩ := h
  exact isAddr_of_validAddr hd

/-- Every cell of a state with the invariant reads a word. -/
theorem State.Inv.inRange_read {s : State} (h : s.Inv) (a : Nat) : inRange s.cfg (s.mem.read a) = true := by
  rcases Memory.read_mem_or_zero s.mem a with h0 | hmem
  · rw [h0]
    exact inRange_zero h.cfg
  · exact (h.cells _ hmem).2

/-- The value of an operand is a word: the raw parameter, or what the effective address reads. -/
theorem State.Inv.inRange_of_valueIs {s : State} (h : s.Inv) {k : Nat} {m : Mode} {v : Word} (hv : ValueIs s k m v) :
    inRange s.cfg v = true := by
  obtain ⟨p, ⟨-, rfl⟩, ⟨-, rfl⟩ | ⟨_, n, -, -, rfl⟩⟩ := hv
  · exact h.inRange_read _
  · exact h.inRange_read n

theorem isAddr_of_legalImage {c : Config} {image : List Word} (h : legalImage c image = true) {a : Nat}
    (ha : a < image.length) : isAddr c a = true := by
  obtain ⟨-, hlen⟩ := Bool.and_eq_true_iff.1 h
  unfold isAddr
  cases hc : c.amax with
  | atMost m =>
    simp only [hc, decide_eq_true_eq] at hlen ⊢
    omega
  | unbounded => rfl

theorem inRange_of_legalImage {c : Config} {image : List Word} (h : legalImage c image = true) {v : Word}
    (hv : v ∈ image) : inRange c v = true :=
  List.all_eq_true.1 (Bool.and_eq_true_iff.1 h).1 v hv

/-! ## The invariant, update by update -/

theorem stOk_of_running {s : State} (h : s.st = .running) : s.StOk := by
  rw [State.StOk, h]
  trivial

section
variable {s : State} (h : s.Inv)
include h

theorem State.Inv.turnUsed : s.turnUsed.Inv := ⟨h.cfg, h.mem, h.cells, h.rb, h.outs, h.st⟩

theorem State.Inv.setSt {e : EngineState} (hst : (s.setSt e).StOk) : (s.setSt e).Inv :=
  ⟨h.cfg, h.mem, h.cells, h.rb, h.outs, hst⟩

theorem State.Inv.setIp (hst : s.st = .running) (n : Nat) : (s.setIp n).Inv :=
  ⟨h.cfg, h.mem, h.cells, h.rb, h.outs, stOk_of_running hst⟩

theorem State.Inv.setRb (hst : s.st = .running) {r : Word} (hr : inRange s.cfg r = true) : (s.setRb r).Inv :=
  ⟨h.cfg, h.mem, h.cells, hr, h.outs, stOk_of_running hst⟩

theorem State.Inv.cells_write {d : Nat} {v : Word} (hd : isAddr s.cfg d = true) (hv : inRange s.cfg v = true) :
    ∀ c ∈ s.mem.write d v, isAddr s.cfg c.1 = true ∧ inRange s.cfg c.2 = true := by
  intro c hc
  rcases Memory.mem_write hc with ⟨-, rfl⟩ | hc
  · exact ⟨hd, hv⟩
  · exact h.cells c hc

theorem State.Inv.store (hst : s.st = .running) {d : Nat} {v : Word} (hd : isAddr s.cfg d = true)
    (hv : inRange s.cfg v = true) : (s.store d v).Inv :=
  ⟨h.cfg, Memory.wf_write d v h.mem, h.cells_write hd hv, h.rb, h.outs, stOk_of_running hst⟩

/-- The latch is promised in `Cancelled` and mentioned nowhere else. -/
theorem State.Inv.setCancel : s.setCancel.Inv := by
  refine ⟨h.cfg, h.mem, h.cells, h.rb, h.outs, ?_⟩
  have hst := h.st
  unfold State.StOk at hst ⊢
  rw [State.setCancel_st]
  generalize s.st = e at hst ⊢
  cases e with
  | cancelled => rfl
  | _ => exact hst

theorem State.Inv.completeInp {d : Nat} {v : Word} (hst : s.st = .awaitingInput d) (hv : inRange s.cfg v = true) :
    (completeInp d v s).Inv := by
  have hok := h.st
  rw [State.StOk, hst] at hok
  obtain ⟨-, m1, m2, m3, -, hd⟩ := hok
  exact ⟨h.cfg, Memory.wf_write d v h.mem, h.cells_write hd.isAddr hv, h.rb, h.outs, trivial⟩

theorem State.Inv.completeOut {v : Word} (hst : s.st = .awaitingOutput v) : (completeOut v s).Inv := by
  have hok := h.st
  rw [State.StOk, hst] at hok
  obtain ⟨-, m1, m2, m3, -, hv⟩ := hok
  refine ⟨h.cfg, h.mem, h.cells, h.rb, fun w hw => ?_, trivial⟩
  rcases List.mem_append.1 hw with hw | hw
  · exact h.outs w hw
  · rw [List.mem_singleton.1 hw]
    exact h.inRange_of_valueIs hv

/-- The effect of the instruction at `ip` keeps the invariant: what it stores or adds to `rb` is a word, and the latch
it leaves holds what its operand resolves to. -/
theorem State.Inv.effect {i : Instr} {t : State} (hst : s.st = .running) (hd : decode (s.mem.read s.ip) = .ok i)
    (he : Effect s i t) : t.Inv := by
  cases he with
  | add _ _ hdest hr => exact (h.store hst hdest.isAddr hr).setIp hst _
  | mul _ _ hdest hr => exact (h.store hst hdest.isAddr hr).setIp hst _
  | lt _ _ hdest => exact (h.store hst hdest.isAddr (inRange_bit h.cfg _)).setIp hst _
  | eq _ _ hdest => exact (h.store hst hdest.isAddr (inRange_bit h.cfg _)).setIp hst _
  | inp hin hdest => exact h.setSt ⟨hin, _, _, _, hd, hdest⟩
  | out hout hv => exact h.setSt ⟨hout, _, _, _, hd, hv⟩
  | hlt => exact h.setSt ⟨_, _, _, hd⟩
  | arb _ hr => exact (h.setRb hst hr).setIp hst _
  | _ => exact h.setIp hst _

end

/-- A legal image makes a state with the invariant. -/
theorem inv_resetTo {c : Config} {image : List Word} (hi ho : Bool) (es : List HostEvent) (hc : c.wf = true)
    (himage : legalImage c image = true) : (resetTo c image hi ho es).Inv := by
  refine ⟨hc, Memory.wf_ofImage image, fun e he => ?_, inRange_zero hc, by simp [resetTo], trivial⟩
  obtain ⟨-, hlt, -, hmem⟩ := mem_imageFrom he
  exact ⟨isAddr_of_legalImage himage (by simpa using hlt), inRange_of_legalImage himage hmem⟩

/-- Settles O54: `State.reset` is the reset with the empty image. -/
theorem resetHasInvariant : Obligations.ResetHasInvariant :=
  inv_resetTo (c := Config.standard) (image := []) true true [] rfl rfl

/-- The engine's turn keeps the invariant. -/
theorem TurnCase.keeps_inv {s t : State} (h : TurnCase s t) (hs : s.Inv) : t.Inv := by
  have hu := hs.turnUsed
  cases h with
  | idle _ => exact hu
  | cancelled _ hc => exact hu.setSt hc
  | effect hi he =>
    obtain ⟨hst, -, -, -, hd⟩ := hi
    exact hu.effect hst hd he
  | fault _ _ hok => exact hu.setSt ⟨rfl, rfl, hok⟩

/-- Settles O53: by the turn that is made, the engine's or one of the host's events. -/
theorem stepKeepsInvariant : Obligations.StepKeepsInvariant := by
  intro s t hs h
  cases step_cases h with
  | engine ht he => exact (turn_cases ht he).keeps_inv hs
  | input _ hst hv => exact hs.turnUsed.completeInp hst hv
  | accept _ hst => exact hs.turnUsed.completeOut hst
  | cancel _ => exact hs.turnUsed.setCancel
  | reset _ himage => exact inv_resetTo _ _ _ hs.cfg himage

end Sys2Proof.Machine
end

section
/-! SUPPORT. The same state on the machine with no bounds (90_conflicts.md C9): what resolves, runs and completes here
does so there, with the same result. -/
namespace Sys2Proof.Machine

theorem ParamIs.onInfinite {s : State} {k : Nat} {p : Word} (h : ParamIs s k p) : ParamIs s.onInfinite k p :=
  ⟨rfl, h.2⟩

theorem ValueIs.onInfinite {s : State} {k : Nat} {m : Mode} {v : Word} (h : ValueIs s k m v) :
    ValueIs s.onInfinite k m v := by
  obtain ⟨p, hp, himm | ⟨ea, n, hea, hn, hread⟩⟩ := h
  · exact ⟨p, hp.onInfinite, .inl himm⟩
  · exact ⟨p, hp.onInfinite, .inr ⟨ea, n, hea, validAddr_infinite hn, hread⟩⟩

theorem DestIs.onInfinite {s : State} {k : Nat} {m : Mode} {d : Nat} (h : DestIs s k m d) :
    DestIs s.onInfinite k m d := by
  obtain ⟨p, ea, hp, hea, hd⟩ := h
  exact ⟨p, ea, hp.onInfinite, hea, validAddr_infinite hd⟩

theorem Effect.onInfinite {i : Instr} {s t : State} (h : Effect s i t) : Effect s.onInfinite i t.onInfinite := by
  cases h with
  | add ha hb hd _ => exact .add ha.onInfinite hb.onInfinite hd.onInfinite rfl
  | mul ha hb hd _ => exact .mul ha.onInfinite hb.onInfinite hd.onInfinite rfl
  | lt ha hb hd => exact .lt ha.onInfinite hb.onInfinite hd.onInfinite
  | eq ha hb hd => exact .eq ha.onInfinite hb.onInfinite hd.onInfinite
  | inp hin hd => exact .inp hin hd.onInfinite
  | out hout hv => exact .out hout hv.onInfinite
  | jtTaken ha hv hz hn => exact .jtTaken ha.onInfinite hv.onInfinite hz (validAddr_infinite hn)
  | jtPassed ha hv hz => exact .jtPassed ha.onInfinite hv.onInfinite hz
  | jfTaken ha hv hz hn => exact .jfTaken ha.onInfinite hv.onInfinite hz (validAddr_infinite hn)
  | jfPassed ha hv hz => exact .jfPassed ha.onInfinite hv.onInfinite hz
  | arb ha _ => exact .arb ha.onInfinite rfl
  | hlt => exact .hlt

theorem State.AboutToRun.onInfinite {s : State} {i : Instr} (h : s.AboutToRun i) : s.onInfinite.AboutToRun i := by
  obtain ⟨hst, hc, ht, -, hd⟩ := h
  exact ⟨hst, hc, ht, rfl, hd⟩

theorem legalImage_infinite (image : List Word) : legalImage Config.infinite image = true :=
  Bool.and_eq_true_iff.2 ⟨List.all_eq_true.2 fun v _ => inRange_infinite v, rfl⟩

/-- A turn of the engine that ends in no fault is the turn of the unbounded engine too. -/
theorem TurnCase.step_onInfinite {s t : State} (h : TurnCase s t) (ht : s.enginesTurn = true) (hfr : t.fr = none) :
    step s.onInfinite = .next t.onInfinite := by
  cases h with
  | idle hst =>
    rw [step_of_enginesTurn (s := s.onInfinite) ht]
    exact engineTurn_of_not_running (s := s.onInfinite.turnUsed) hst
  | cancelled hst hc => exact cancelStopsBeforeFetch s.onInfinite hst hc ht
  | effect hi he =>
    rw [step_of_aboutToRun hi.onInfinite]
    exact exec_of_effect he.onInfinite
  | fault _ _ _ =>
    rw [fr_eq_some.2 (raise_st _ _)] at hfr
    cases hfr

/-- An event of the host acts on the unbounded machine with the turn used up. -/
theorem step_onInfinite_of_host {s : State} {e : HostEvent} {es : List HostEvent} (h : s.host = e :: es) :
    step s.onInfinite = hostTurn e s.turnUsed.onInfinite := by
  rw [step_of_host (s := s.onInfinite) h, turnUsed_eq_setHost (s := s.onInfinite) h]
  rfl

/-- Settles O55: each turn that ends in no fault, the engine's or the host's, is one of the unbounded machine. -/
theorem finiteMachineRefinesInfinite : Obligations.FiniteMachineRefinesInfinite := by
  intro s t h hfr
  cases step_cases h with
  | engine ht he => exact (turn_cases ht he).step_onInfinite ht hfr
  | input hh hst _ =>
    rw [step_onInfinite_of_host hh]
    exact inputValue_of_awaiting (s := s.turnUsed.onInfinite) hst rfl
  | accept hh hst =>
    rw [step_onInfinite_of_host hh]
    exact outputAccept_of_awaiting (s := s.turnUsed.onInfinite) hst
  | cancel hh => exact step_onInfinite_of_host hh
  | reset hh _ =>
    rw [step_of_host (s := s.onInfinite) hh]
    exact resetEvent_of_legal (legalImage_infinite _)

end Sys2Proof.Machine
end

section
/-! SUPPORT. Two steps in a row: a stored instruction is fetched (20_memory.md section 4), and a waiting engine's turns
change nothing (40_engine.md section 3). -/
namespace Sys2Proof.Machine

/-- Settles O49: the sum is stored where `ip` goes on to, so it is the word the next step reads. -/
theorem storeSeenByNextFetch : Obligations.StoreSeenByNextFetch := by
  intro m1 m2 m3 s a b j hi ha hb hd hr hnext hj
  obtain ⟨hst, hc, -, -, -⟩ := id hi
  have hrun : ((s.turnUsed.store (s.ip + 4) (a + b)).advance 4).AboutToRun j := by
    refine ⟨hst, hc, hnext, hd.isAddr, ?_⟩
    rw [State.advance_mem, State.store_mem, State.advance_ip, State.store_ip, State.turnUsed_ip,
      Memory.read_write_same, hj]
  refine ⟨_, ?_, hrun, step_of_aboutToRun hrun⟩
  rw [step_of_aboutToRun hi]
  exact exec_of_effect (s := s.turnUsed) (.add ha hb hd hr)

/-- A turn of the engine at the head of the host's list is used up and changes nothing while the engine waits. -/
theorem step_of_waiting_turn {s : State} {es : List HostEvent} (hst : s.st ≠ .running) :
    step { s with host := .engineTurn :: es } = .next { s with host := es } := by
  rw [step_of_host (s := { s with host := .engineTurn :: es }) rfl]
  exact engineTurn_of_not_running (s := { s with host := es }) hst

/-- Settles O50: by induction on the number of turns, each of which answers the same state. -/
theorem hostDelayInvisible : Obligations.HostDelayInvisible := by
  intro s k e es hw
  have hst := st_ne_running_of_waiting hw
  induction k with
  | zero => exact core_run_one _
  | succ k ih =>
    rw [← ih, List.replicate_succ, List.cons_append]
    exact core_run_succ (step_of_waiting_turn hst)

end Sys2Proof.Machine
end
